-- ==== Sys2Proof/Word.lean ====
section
/-! DEFINITION. The bit-vector types of the unit's values (00_scope.md R7, R9). -/

namespace Sys2Proof

/-- A byte of host memory: the access unit of the port (20_memory.md R54). -/
abbrev Byte := BitVec 8

/-- A binary32 pattern or a command word (R7, R80). -/
abbrev Word32 := BitVec 32

/-- A binary64 pattern, a byte address or an operand word (R7, R80). -/
abbrev Word64 := BitVec 64

end Sys2Proof
end

