-- ==== Sys2Proof/Syntax.lean ====
section
/-! DEFINITION. What the host sends: the raw command triple (30_encoding.md R80), the ten operation codes
(R82, R87) and the decoded command with its operands (R83). -/

namespace Sys2Proof

/-- A command as the host sends it: the command word `W` and the operand words `A` and `B` (R80). -/
structure Command where
  word : Word32
  a    : Word64
  b    : Word64
  deriving DecidableEq, Repr

/-- The ten operation codes, in the order of the opcode map (R82). -/
inductive Op where
  | configure | setRadius | bulkLoad | compress | setDst
  | plan | pack1 | pack2 | unpack1 | unpack2
  deriving DecidableEq, Repr

/-- A decoded command with the operand bits it uses (R82, R83). An element count is a count, so a `Nat`;
`Instr.wf` says that it fits its 64-bit operand word. -/
inductive Instr where
  /-- CONFIGURE errorBound, median (44_offload_protocol.md R210). -/
  | configure (errBound : Word64) (median : Word32)
  /-- SET_RADIUS radius (R211). -/
  | setRadius (radius : Word32)
  /-- BULK_LOAD blockPointer, blockLength (R212). -/
  | bulkLoad (src : Word64) (count : Nat)
  /-- COMPRESS (43_delta_xor_encoder.md R180). -/
  | compress
  /-- SET_DST destination (R213). -/
  | setDst (dst : Word64)
  /-- PLAN (42_precision_truncator.md R148). -/
  | plan
  /-- PACK1 source, L (41_bit_packer.md R115). -/
  | pack1 (src : Word64) (count : Nat)
  /-- PACK2 source, L (R116). -/
  | pack2 (src : Word64) (count : Nat)
  /-- UNPACK1 source, L (R117). -/
  | unpack1 (src : Word64) (count : Nat)
  /-- UNPACK2 source, L (R118). -/
  | unpack2 (src : Word64) (count : Nat)
  deriving DecidableEq, Repr

end Sys2Proof
end

