-- ==== Sys2Proof/WellFormed.lean ====
section
/-! DEFINITION. Which decoded commands an operand pair can carry: an element count is a whole 64-bit operand
word (30_encoding.md R83; 41_bit_packer.md R115, "0 <= L < 2^64"). Every other operand is a bit vector of
its own width and needs no check. -/

namespace Sys2Proof

/-- An element count that its operand word can hold (R83). -/
def countFits (n : Nat) : Bool := decide (n < 2 ^ 64)

/-- The well-formed commands: those some command triple encodes. -/
def Instr.wf : Instr → Bool
  | .configure _ _ => true
  | .setRadius _ => true
  | .bulkLoad _ n => countFits n
  | .compress => true
  | .setDst _ => true
  | .plan => true
  | .pack1 _ n => countFits n
  | .pack2 _ n => countFits n
  | .unpack1 _ n => countFits n
  | .unpack2 _ n => countFits n

end Sys2Proof
end

