-- ==== Sys2Proof/Decode.lean ====
section
/-! DEFINITION. The decoder, total on every command triple and rejecting by name (30_encoding.md R81 to R87),
and after it the encoder written from the same table. -/

namespace Sys2Proof

/-- Why a command word is illegal (R81, R84). -/
inductive DecodeError where
  /-- W[31:8] is not zero. -/
  | reservedBits
  /-- W[7:0] is none of the ten codes. -/
  | unassignedCode
  deriving DecidableEq, Repr

/-- The field OP, bits 7:0 of the command word (R81). -/
def opField (w : Word32) : BitVec 8 := w.extractLsb' 0 8

/-- The field RSV, bits 31:8 of the command word (R81). -/
def rsvField (w : Word32) : BitVec 24 := w.extractLsb' 8 24

/-- The operation a command word names (R87). -/
def decodeOp (w : Word32) : Except DecodeError Op :=
  if rsvField w ≠ 0 then .error .reservedBits
  else match (opField w).toNat with
    | 0x01 => .ok .configure
    | 0x02 => .ok .setRadius
    | 0x03 => .ok .bulkLoad
    | 0x04 => .ok .compress
    | 0x05 => .ok .setDst
    | 0x06 => .ok .plan
    | 0x07 => .ok .pack1
    | 0x08 => .ok .pack2
    | 0x09 => .ok .unpack1
    | 0x0A => .ok .unpack2
    | _ => .error .unassignedCode

/-- Bits 31:0 of an operand word: a binary32 operand (R83). -/
def lowHalf (w : Word64) : Word32 := w.extractLsb' 0 32

/-- Operand assembly: which bits of `A` and `B` each operation uses (R82, R83). -/
def assembleOperands (op : Op) (a b : Word64) : Instr :=
  match op with
  | .configure => .configure a (lowHalf b)
  | .setRadius => .setRadius (lowHalf a)
  | .bulkLoad => .bulkLoad a b.toNat
  | .compress => .compress
  | .setDst => .setDst a
  | .plan => .plan
  | .pack1 => .pack1 a b.toNat
  | .pack2 => .pack2 a b.toNat
  | .unpack1 => .unpack1 a b.toNat
  | .unpack2 => .unpack2 a b.toNat

/-- The command a triple stands for, or why its word is illegal (R84, R87). -/
def decode (c : Command) : Except DecodeError Instr :=
  match decodeOp c.word with
  | .ok op => .ok (assembleOperands op c.a c.b)
  | .error e => .error e

/-- The command triple of `nbits` bits numbered as the opcode table numbers them, the bits above them zero: the
command word is bits 31:0, then `A`, then `B` (log 17). -/
def commandOfBits (nbits w : Nat) : Command :=
  let v := w % 2 ^ nbits
  { word := BitVec.ofNat 32 v
    a := BitVec.ofNat 64 (v >>> 32)
    b := BitVec.ofNat 64 (v >>> 96) }

/-- The command the decoder reads from the bits of an opcode-table word. -/
def decodeTableWord (nbits w : Nat) : Option Instr :=
  match decode (commandOfBits nbits w) with
  | .ok i => some i
  | .error _ => none

/-- The code of an operation in the opcode map (R82). -/
def opCode : Op → Word32
  | .configure => 0x00000001
  | .setRadius => 0x00000002
  | .bulkLoad => 0x00000003
  | .compress => 0x00000004
  | .setDst => 0x00000005
  | .plan => 0x00000006
  | .pack1 => 0x00000007
  | .pack2 => 0x00000008
  | .unpack1 => 0x00000009
  | .unpack2 => 0x0000000A

/-- The operation of a decoded command. -/
def opOf : Instr → Op
  | .configure _ _ => .configure
  | .setRadius _ => .setRadius
  | .bulkLoad _ _ => .bulkLoad
  | .compress => .compress
  | .setDst _ => .setDst
  | .plan => .plan
  | .pack1 _ _ => .pack1
  | .pack2 _ _ => .pack2
  | .unpack1 _ _ => .unpack1
  | .unpack2 _ _ => .unpack2

/-- The operand word `A` of a command, ignored bits zero (R82, R83). -/
def operandA : Instr → Word64
  | .configure eb _ => eb
  | .setRadius r => r.setWidth 64
  | .bulkLoad src _ => src
  | .compress => 0
  | .setDst dst => dst
  | .plan => 0
  | .pack1 src _ => src
  | .pack2 src _ => src
  | .unpack1 src _ => src
  | .unpack2 src _ => src

/-- The operand word `B` of a command, ignored bits zero (R82, R83). -/
def operandB : Instr → Word64
  | .configure _ med => med.setWidth 64
  | .setRadius _ => 0
  | .bulkLoad _ n => BitVec.ofNat 64 n
  | .compress => 0
  | .setDst _ => 0
  | .plan => 0
  | .pack1 _ n => BitVec.ofNat 64 n
  | .pack2 _ n => BitVec.ofNat 64 n
  | .unpack1 _ n => BitVec.ofNat 64 n
  | .unpack2 _ n => BitVec.ofNat 64 n

/-- The command triple of a command (R82, R83). -/
def encode (i : Instr) : Command :=
  { word := opCode (opOf i), a := operandA i, b := operandB i }

end Sys2Proof
end

