-- ==== Sys2Proof/Config.lean ====
section
/-! DEFINITION. What does not change while the machine runs: the OPEN parameters and the free values (opaque, so
no proof can see them), the constants the spec decides, and the values the model names where the spec gives
none (each with its log entry). -/

namespace Sys2Proof

/-- The byte addresses `base`, …, `base + size - 1`. -/
structure Region where
  base : Nat
  size : Nat
  deriving DecidableEq, Repr

/-- The number of byte addresses of host memory (20_memory.md R50). -/
def Config.memorySize : Nat := 2 ^ 64

/-- The OPEN parameter MAX_BLOCK_LEN, less one: no value is fixed (00_scope.md R7; log 3). -/
opaque Config.maxBlockLenPred : Fin (2 ^ 62 - 2 + 1)

/-- MAX_BLOCK_LEN: an integer M with 1 <= M < 2^62 (R7). -/
def Config.maxBlockLen : Nat := Config.maxBlockLenPred.val + 1

/-- The OPEN parameter Accessible, as the regions the port may not touch: no value is fixed (R7, R53; log 3). -/
opaque Config.inaccessible : List Region

/-- The free draws of 70_reset_and_hazards.md R271 and R275, one for each number (log 6). -/
opaque Config.draw : Nat → Bool

/-- NAN_RESULT: the pattern of every NaN result of the subtractor (R7, decision D13). -/
def Config.nanResult : Word32 := 0x7FC00000

/-- The base 9 of the required bit length (42_precision_truncator.md R145). -/
def Config.planBase : Int := 9

/-- The increment 1 of the required bit length (R145). -/
def Config.planIncrement : Int := 1

/-- The floor of the required bit length (R145). -/
def Config.planFloor : Int := 9

/-- The ceiling of the required bit length (R145). -/
def Config.planCeiling : Int := 32

/-- The exponent bias of a binary32 pattern (R141). -/
def Config.bias32 : Int := 127

/-- The exponent bias of a binary64 pattern (R143). -/
def Config.bias64 : Int := 1023

/-- The saturated median, +0.0 (R145, decision D35). -/
def Config.saturatedMedian : Word32 := 0

/-- What a byte of memory reads as when nothing has written it. DESIGN CHOICE, unsafe (log 1). -/
def Config.unwrittenByte : Byte := 0

/-- The reset value of ERRBOUND, unspecified in 10_state.md R36. DESIGN CHOICE, unsafe (log 2). -/
def Config.errBoundAtReset : Word64 := 0

/-- The reset value of MEDIAN, unspecified in R36. DESIGN CHOICE, unsafe (log 2). -/
def Config.medianAtReset : Word32 := 0

/-- The reset value of RADIUS, unspecified in R36. DESIGN CHOICE, unsafe (log 2). -/
def Config.radiusAtReset : Word32 := 0

/-- The reset value of DST, unspecified in R36. DESIGN CHOICE, unsafe (log 2). -/
def Config.dstAtReset : Word64 := 0

/-- The reset value of each element of SAMPLES, unspecified in R36. DESIGN CHOICE, unsafe (log 2). -/
def Config.sampleAtReset : Word32 := 0

/-- The reset value of each element of LEAD, unspecified in R36. DESIGN CHOICE, unsafe (log 2). -/
def Config.leadAtReset : BitVec 2 := 0

end Sys2Proof
end

