-- ==== Sys2Proof/Machine/State.lean ====
section
/-! DEFINITION. The state of the unit, of host memory and of the host's side of the command port, as plain data
(10_state.md R20), and the state after reset (R36). -/

namespace Sys2Proof.Machine

open Sys2Proof

/-- Host memory as (address, byte) pairs: addresses strictly rising, no byte equal to `Config.unwrittenByte`,
which is what an unlisted address reads as (20_memory.md R50; log 1). -/
abbrev Memory := List Host.Cell

/-- The status codes a response can carry (60_exceptions.md R240). -/
inductive Status where
  | ok | illegalCommand | notReady | lengthRange | accessFault | unsupportedPrecision | badElement
  deriving DecidableEq, Repr

/-- The answer to one command: the status `S` and the value `V` (30_encoding.md R80). -/
structure Response where
  status : Status
  value  : Word64
  deriving DecidableEq, Repr

/-- One access of the host, or of another agent, to a byte of memory while a command is outstanding
(70_reset_and_hazards.md R275). -/
inductive HostAccess where
  | store (addr : Word64) (byte : Byte)
  | load (addr : Word64)
  deriving DecidableEq, Repr

/-- What the host and the platform do to the unit, one entry at a time and in order (log 4). -/
inductive HostInput where
  /-- The host issues a command, holding the response of the one before (R80, R274). -/
  | command (c : Command)
  /-- The host issues these commands in turn until one status is not OK (R89). -/
  | untilError (cs : List Command)
  /-- Between commands, the host writes a byte of memory (R58). -/
  | store (addr : Word64) (byte : Byte)
  /-- Between commands, the host reads a byte of memory (R58). -/
  | load (addr : Word64)
  /-- The platform asserts reset between commands (R270). -/
  | reset
  /-- The platform asserts reset while the command is outstanding (R271), the host accessing memory meanwhile as
  listed, with nothing listed if it keeps the discipline (R275). -/
  | resetDuring (c : Command) (accesses : List HostAccess)
  /-- The platform asserts reset before the command is accepted (R271). -/
  | resetBefore (c : Command)
  /-- The host issues a command and, against the discipline, accesses memory while it is outstanding (R275). -/
  | raced (c : Command) (accesses : List HostAccess)
  /-- The host issues the second command while the first is outstanding (R274). -/
  | early (c second : Command)
  deriving DecidableEq, Repr

/-- The OPEN parameters of a run (00_scope.md R7). No step changes them (log 3). -/
structure Platform where
  /-- MAX_BLOCK_LEN, the capacity of SAMPLES. -/
  maxBlockLen  : Nat
  /-- The regions whose addresses are not Accessible. -/
  inaccessible : List Region
  deriving DecidableEq, Repr

/-- The state: the unit's registers (R20), host memory, the parameters of the run, and the model's own record of
the host's side of the port. -/
structure State where
  /-- ERRBOUND, a binary64 pattern (R21). -/
  errBound  : Word64
  /-- MEDIAN, a binary32 pattern (R22). -/
  median    : Word32
  /-- RADIUS, a binary32 pattern (R23). -/
  radius    : Word32
  /-- DST, the output base address (R24). -/
  dst       : Word64
  /-- BLKLEN, the element count of the loaded block (R25). -/
  blkLen    : Nat
  /-- SAMPLES from element 0; an element past the end holds its reset value (R26; log 9). -/
  samples   : List Word32
  /-- CFG_V: CONFIGURE has completed since reset (R27). -/
  cfgV      : Bool
  /-- RAD_V: SET_RADIUS has completed since reset (R27). -/
  radV      : Bool
  /-- LOAD_V: a BULK_LOAD has succeeded since reset (R27). -/
  loadV     : Bool
  /-- DST_V: SET_DST has completed since reset (R27). -/
  dstV      : Bool
  /-- LEAD from element 0; an element past the end holds its reset value (R28; log 9). -/
  lead      : List (BitVec 2)
  /-- Host memory (R50). -/
  mem       : Memory
  /-- MAX_BLOCK_LEN and Accessible (R7). -/
  platform  : Platform
  /-- What the host and the platform do next, in order (log 4). -/
  inbox     : List HostInput
  /-- The responses the host holds, oldest first (R281; log 5). -/
  responses : List Response
  /-- The bytes the host has read, oldest first (R275; log 5). -/
  hostReads : List Byte
  /-- How many free draws have been taken (log 6). -/
  draws     : Nat
  deriving DecidableEq, Repr

/-- Why the machine stops. -/
inductive Fault where
  /-- Raised by `receive` when the host issues a command while another is outstanding: such a command has no
  step (R274, decision D27). Safe: the model stops where hardware may go on (log 7). -/
  | commandPortBusy
  deriving DecidableEq, Repr

/-- Why a command has no meaning. -/
inductive Refusal where
  /-- Raised by `exec` for a command not modelled yet. Safe. No arm raises it. -/
  | notModelled (mnemonic : String)
  deriving DecidableEq, Repr

/-- The machine right after reset (R36, R270): no valid bit set, an empty block, nothing issued yet. Where the spec
leaves a register unspecified it holds the value its log entry names (log 2). -/
def State.reset : State where
  errBound := Config.errBoundAtReset
  median := Config.medianAtReset
  radius := Config.radiusAtReset
  dst := Config.dstAtReset
  blkLen := 0
  samples := []
  cfgV := false
  radV := false
  loadV := false
  dstV := false
  lead := []
  mem := []
  platform := { maxBlockLen := Config.maxBlockLen, inaccessible := Config.inaccessible }
  inbox := []
  responses := []
  hostReads := []
  draws := 0

end Sys2Proof.Machine
end

