-- ==== Sys2Proof/Machine/Ops.lean ====
section
/-! DEFINITION. The named operations over memory and registers: the memory port (20_memory.md R50 to R55), the
range check (R53), the register writes (10_state.md R35), the answer to a command, and ending a command with an
error, which is all the unit has for taking an exception (60_exceptions.md R244, R246, R247). -/

namespace Sys2Proof.Machine

open Sys2Proof

/-- The canonical form from address `lo` on: addresses strictly rising and below 2^64, no unwritten byte listed. -/
def Memory.wfFrom : Nat → Memory → Bool
  | _, [] => true
  | lo, (a, b) :: rest =>
    decide (lo ≤ a) && decide (a < Config.memorySize) && decide (b ≠ Config.unwrittenByte) &&
      Memory.wfFrom (a + 1) rest

/-- The canonical form of host memory. -/
def Memory.wf (m : Memory) : Bool := Memory.wfFrom 0 m

/-- `MemReadByte` (R50). -/
def Memory.read : Memory → Nat → Byte
  | [], _ => Config.unwrittenByte
  | (a', b') :: rest, a => if a = a' then b' else Memory.read rest a

/-- `MemWriteByte` (R50), keeping the canonical form. -/
def Memory.write : Memory → Nat → Byte → Memory
  | [], a, b => if b = Config.unwrittenByte then [] else [(a, b)]
  | (a', b') :: rest, a, b =>
    if a < a' then
      if b = Config.unwrittenByte then (a', b') :: rest else (a, b) :: (a', b') :: rest
    else if a = a' then
      if b = Config.unwrittenByte then rest else (a, b) :: rest
    else (a', b') :: Memory.write rest a b

/-- The `n` bytes from address `a` on, in address order. -/
def Memory.readBytes (m : Memory) (a n : Nat) : List Byte :=
  (List.range n).map fun k => m.read (a + k)

/-- The bytes written from address `a` on, in address order. -/
def Memory.writeBytes : Memory → Nat → List Byte → Memory
  | m, _, [] => m
  | m, a, b :: bs => Memory.writeBytes (m.write a b) (a + 1) bs

/-- `MemRead(a, n)`: the little-endian value of `n` bytes (00_scope.md R11, 20_memory.md R51). -/
def Memory.readValue (m : Memory) : Nat → Nat → Nat
  | _, 0 => 0
  | a, n + 1 => (m.read a).toNat + 256 * Memory.readValue m (a + 1) n

/-- The address lies in the region. -/
def regionHas (r : Region) (x : Nat) : Bool := decide (r.base ≤ x) && decide (x < r.base + r.size)

/-- `Accessible` (R53): the address exists and no inaccessible region holds it. -/
def accessible (p : Platform) (x : Nat) : Bool :=
  decide (x < Config.memorySize) && p.inaccessible.all fun r => !regionHas r x

/-- The range [a, a+n) and the region share no address, for `n` above 0. -/
def regionAvoids (r : Region) (a n : Nat) : Bool :=
  decide (r.size = 0) || decide (a + n ≤ r.base) || decide (r.base + r.size ≤ a)

/-- `RangeOK(a, n)` (R53): no wrap past 2^64, and every address of [a, a+n) Accessible. -/
def rangeOK (p : Platform) (a n : Nat) : Bool :=
  decide (n = 0) ||
    (decide (a + n ≤ Config.memorySize) && p.inaccessible.all fun r => regionAvoids r a n)

/-- The new elements laid over the first elements of the old ones. -/
def overlay {α : Type} (new old : List α) : List α := new ++ old.drop new.length

/-- SAMPLES[i] (10_state.md R26). -/
def State.sample (s : State) (i : Nat) : Word32 := s.samples.getD i Config.sampleAtReset

/-- SAMPLES[0..BLKLEN-1], the loaded block (R25, R26). -/
def State.block (s : State) : List Word32 := (List.range s.blkLen).map s.sample

/-- LEAD[i] (R28). -/
def State.leadCount (s : State) (i : Nat) : BitVec 2 := s.lead.getD i Config.leadAtReset

/-- ERRBOUND, MEDIAN and CFG_V as CONFIGURE writes them (R35). -/
def State.setConfig (s : State) (eb : Word64) (med : Word32) : State :=
  { s with errBound := eb, median := med, cfgV := true }

/-- RADIUS and RAD_V as SET_RADIUS writes them (R35). -/
def State.setRadius (s : State) (r : Word32) : State := { s with radius := r, radV := true }

/-- DST and DST_V as SET_DST writes them (R35). -/
def State.setDst (s : State) (d : Word64) : State := { s with dst := d, dstV := true }

/-- SAMPLES, BLKLEN and LOAD_V as BULK_LOAD writes them (R35); later elements keep what they held (R26). -/
def State.setBlock (s : State) (block : List Word32) : State :=
  { s with samples := overlay block s.samples, blkLen := block.length, loadV := true }

/-- LEAD as COMPRESS writes it (R35); later elements keep what they held. -/
def State.setLead (s : State) (counts : List (BitVec 2)) : State :=
  { s with lead := overlay counts s.lead }

/-- The bytes written at DST (R24). -/
def State.storeAtDst (s : State) (out : List Byte) : State :=
  { s with mem := s.mem.writeBytes s.dst.toNat out }

/-- The response joins those the host holds (30_encoding.md R80). -/
def State.answer (s : State) (st : Status) (v : Word64) : State :=
  { s with responses := s.responses ++ [{ status := st, value := v }] }

/-- `respond(v)`: the command completes with status OK (00_scope.md R11). -/
def State.respond (s : State) (v : Word64) : State := s.answer .ok v

/-- `raise S`: the command ends with an error, value 0 and no other change of state (R11; 60_exceptions.md R244).
The unit has no trap, saves nothing and needs no return (R246, R247). -/
def State.raise (s : State) (st : Status) : State := s.answer st 0

/-- A command whose only effect is the output it writes at DST: the bytes stored and their count answered, or
the error raised. -/
def State.deliver (s : State) (r : Except Status (List Byte)) : State :=
  match r with
  | .ok out => (s.storeAtDst out).respond (BitVec.ofNat 64 out.length)
  | .error e => s.raise e

/-- The status of the newest response is OK (30_encoding.md R89). -/
def State.lastOk (s : State) : Bool :=
  match s.responses.getLast? with
  | some r => decide (r.status = .ok)
  | none => true

/-- What the reset input leaves (70_reset_and_hazards.md R270): the registers at their reset values; host memory,
the parameters of the run and the host's own records as they were (log 8). -/
def State.afterReset (s : State) : State :=
  { State.reset with
    mem := s.mem
    platform := s.platform
    inbox := s.inbox
    responses := s.responses
    hostReads := s.hostReads
    draws := s.draws }

end Sys2Proof.Machine
end

