-- ==== Sys2Proof/Machine/Flags.lean ====
section
/-! DEFINITION. The unit has no status flags and no condition codes (10_state.md R31). Its only one-bit state is
the valid bits (R27), and these are the tests of them that commands make (60_exceptions.md R241). -/

namespace Sys2Proof.Machine

open Sys2Proof

/-- PLAN may run: CFG_V and RAD_V are set (42_precision_truncator.md R148). -/
def State.planReady (s : State) : Bool := s.cfgV && s.radV

/-- COMPRESS may run: all four valid bits are set (43_delta_xor_encoder.md R180). -/
def State.compressReady (s : State) : Bool := s.cfgV && s.radV && s.loadV && s.dstV

/-- The packing commands may run: DST_V is set (41_bit_packer.md R115 to R118). -/
def State.packReady (s : State) : Bool := s.dstV

end Sys2Proof.Machine
end

