-- ==== Sys2Proof/Machine/Operands.lean ====
section
/-! DEFINITION. The forms in which operands and results stand in memory and in words: byte fields of a 32-bit value
(00_scope.md R9), its little-endian bytes (20_memory.md R51), samples read from memory (R51), exact ceilings (R10)
and the status codes (60_exceptions.md R240). The operand bits of a command word are in Decode.lean (30_encoding.md
R83); the unit has no other operand forms. -/

namespace Sys2Proof.Machine

open Sys2Proof

/-- `ceil(a/b)` (00_scope.md R10). -/
def ceilDiv (a b : Nat) : Nat := (a + (b - 1)) / b

/-- Byte k of a 32-bit value: bits 8k+7:8k (R9). -/
def byteOf (v : Word32) (k : Nat) : Byte := v.extractLsb' (8 * k) 8

/-- The four bytes of a value at rising addresses (20_memory.md R51). -/
def le32 (v : Word32) : List Byte := [byteOf v 0, byteOf v 1, byteOf v 2, byteOf v 3]

/-- `MemRead(a, 4)`: one little-endian sample (R51; 44_offload_protocol.md R212). -/
def Memory.readSample (m : Memory) (a : Nat) : Word32 := BitVec.ofNat 32 (m.readValue a 4)

/-- The `n` samples from address `a` on (R212). -/
def Memory.readSamples (m : Memory) (a n : Nat) : List Word32 :=
  (List.range n).map fun i => m.readSample (a + 4 * i)

/-- The 8-bit code of a status (60_exceptions.md R240). -/
def Status.code : Status → Byte
  | .ok => 0x00
  | .illegalCommand => 0x01
  | .notReady => 0x02
  | .lengthRange => 0x03
  | .accessFault => 0x04
  | .unsupportedPrecision => 0x05
  | .badElement => 0x06

end Sys2Proof.Machine
end

