-- ==== Sys2Proof/Machine/BitPacker.lean ====
section
/-! DEFINITION. The Bit-Packer (41_bit_packer.md): the packing functions and PACK1, PACK2, UNPACK1, UNPACK2.
Elements are one byte each in memory (decision D20). -/

namespace Sys2Proof.Machine

open Sys2Proof

/-- Byte j of `pack1`: element 8j+k at bit 7-k, absent elements 0 (R110). -/
def pack1Byte (e : List Byte) (j : Nat) : Byte :=
  (List.range 8).foldl
    (fun p k => if 8 * j + k < e.length then p ||| (e.getD (8 * j + k) 0 <<< (7 - k)) else p) 0

/-- `pack1`: eight flags a byte, most significant bit first (R110). -/
def pack1 (e : List Byte) : List Byte := (List.range (ceilDiv e.length 8)).map (pack1Byte e)

/-- Byte j of `pack2`: element 4j+k at bits 7-2k:6-2k, absent elements 0 (R111). -/
def pack2Byte (e : List Byte) (j : Nat) : Byte :=
  (List.range 4).foldl
    (fun p k => if 4 * j + k < e.length then p ||| (e.getD (4 * j + k) 0 <<< (6 - 2 * k)) else p) 0

/-- `pack2`: four two-bit values a byte (R111). -/
def pack2 (e : List Byte) : List Byte := (List.range (ceilDiv e.length 4)).map (pack2Byte e)

/-- Element i of `unpack1` (R112). -/
def unpack1Elem (p : List Byte) (i : Nat) : Byte := (p.getD (i / 8) 0 >>> (7 - i % 8)) &&& 1

/-- `unpack1`: the first `n` flags of the packed bytes (R112). -/
def unpack1 (p : List Byte) (n : Nat) : List Byte := (List.range n).map (unpack1Elem p)

/-- Element i of `unpack2` (R113). -/
def unpack2Elem (p : List Byte) (i : Nat) : Byte := (p.getD (i / 4) 0 >>> (6 - 2 * (i % 4))) &&& 3

/-- `unpack2`: the first `n` two-bit values of the packed bytes (R113). -/
def unpack2 (p : List Byte) (n : Nat) : List Byte := (List.range n).map (unpack2Elem p)

/-- The checks PACK1 and PACK2 share, in the order of R243, and then the packed bytes: `per` elements a byte, each
at most `top`. All reads come before any write (20_memory.md R63). -/
def packChecked (per : Nat) (top : Byte) (pack : List Byte → List Byte) (src : Word64) (n : Nat)
    (s : State) : Except Status (List Byte) :=
  if s.packReady = false then .error .notReady
  else if rangeOK s.platform src.toNat n = false then .error .accessFault
  else if rangeOK s.platform s.dst.toNat (ceilDiv n per) = false then .error .accessFault
  else
    let e := s.mem.readBytes src.toNat n
    if e.all (fun x => decide (x ≤ top)) then .ok (pack e) else .error .badElement

/-- The checks UNPACK1 and UNPACK2 share, in the order of R243, and then the elements: `per` elements a packed
byte. All reads come before any write (R63). -/
def unpackChecked (per : Nat) (unpack : List Byte → Nat → List Byte) (src : Word64) (n : Nat)
    (s : State) : Except Status (List Byte) :=
  if s.packReady = false then .error .notReady
  else if rangeOK s.platform src.toNat (ceilDiv n per) = false then .error .accessFault
  else if rangeOK s.platform s.dst.toNat n = false then .error .accessFault
  else .ok (unpack (s.mem.readBytes src.toNat (ceilDiv n per)) n)

/-- The bytes PACK1 writes at DST, or its error (R115). -/
def pack1Output (src : Word64) (n : Nat) (s : State) : Except Status (List Byte) :=
  packChecked 8 1 pack1 src n s

/-- The bytes PACK2 writes at DST, or its error (R116). -/
def pack2Output (src : Word64) (n : Nat) (s : State) : Except Status (List Byte) :=
  packChecked 4 3 pack2 src n s

/-- The bytes UNPACK1 writes at DST, or its error (R117). -/
def unpack1Output (src : Word64) (n : Nat) (s : State) : Except Status (List Byte) :=
  unpackChecked 8 unpack1 src n s

/-- The bytes UNPACK2 writes at DST, or its error (R118). -/
def unpack2Output (src : Word64) (n : Nat) (s : State) : Except Status (List Byte) :=
  unpackChecked 4 unpack2 src n s

/-- PACK1 (R115). -/
def execPack1 (src : Word64) (n : Nat) (s : State) : Host.Outcome State Fault Refusal :=
  .next (s.deliver (pack1Output src n s))

/-- PACK2 (R116). -/
def execPack2 (src : Word64) (n : Nat) (s : State) : Host.Outcome State Fault Refusal :=
  .next (s.deliver (pack2Output src n s))

/-- UNPACK1 (R117). -/
def execUnpack1 (src : Word64) (n : Nat) (s : State) : Host.Outcome State Fault Refusal :=
  .next (s.deliver (unpack1Output src n s))

/-- UNPACK2 (R118). -/
def execUnpack2 (src : Word64) (n : Nat) (s : State) : Host.Outcome State Fault Refusal :=
  .next (s.deliver (unpack2Output src n s))

end Sys2Proof.Machine
end

