-- ==== Sys2Proof/Machine/Float.lean ====
section
/-! DEFINITION. Binary floating-point patterns (00_scope.md R9, R10) and binary32 subtraction
(43_delta_xor_encoder.md R172), computed exactly on integers and rounded once. A finite binary32 value is an
integer multiple of 2^-149, its unit here. -/

namespace Sys2Proof.Machine

open Sys2Proof

/-- The sign, bit 31 of a binary32 pattern. -/
def signBit (x : Word32) : Bool := x.getLsbD 31

/-- The biased exponent, bits 30:23 (42_precision_truncator.md R141). -/
def expField32 (x : Word32) : Nat := (x.extractLsb' 23 8).toNat

/-- The fraction, bits 22:0. -/
def fracField32 (x : Word32) : Nat := (x.extractLsb' 0 23).toNat

/-- The biased exponent of a binary64 pattern, bits 62:52 (R143). -/
def expField64 (x : Word64) : Nat := (x.extractLsb' 52 11).toNat

/-- The fraction of a binary64 pattern, bits 51:0. -/
def fracField64 (x : Word64) : Nat := (x.extractLsb' 0 52).toNat

/-- The pattern is a NaN. -/
def isNaN32 (x : Word32) : Bool := decide (expField32 x = 255) && decide (fracField32 x ≠ 0)

/-- The pattern is an infinity. -/
def isInf32 (x : Word32) : Bool := decide (expField32 x = 255) && decide (fracField32 x = 0)

/-- The pattern is finite: zero, subnormal or normal. -/
def isFinite32 (x : Word32) : Bool := decide (expField32 x ≠ 255)

/-- The magnitude of a finite pattern in units of 2^-149; subnormals are kept (R172). -/
def magnitude32 (x : Word32) : Nat :=
  if expField32 x = 0 then fracField32 x
  else (2 ^ 23 + fracField32 x) * 2 ^ (expField32 x - 1)

/-- The value of a finite pattern in units of 2^-149. -/
def units32 (x : Word32) : Int := if signBit x then - (magnitude32 x : Int) else magnitude32 x

/-- Rounding to nearest, ties to even, of the exact quotient `num / den` of units, for a format with `frac` fraction
bits: the pattern without its sign, `limit` or above meaning that the value overflows (R172, decision D12). The
exponent field and the fraction are one number, so a carry out of the fraction lands in the exponent. -/
def roundUnits (frac num den : Nat) : Nat :=
  let shift := (num / den).log2 - frac
  let step := den * 2 ^ shift
  let q := num / step
  let r := num % step
  let up := decide (step < 2 * r) || (decide (2 * r = step) && decide (q % 2 = 1))
  shift * 2 ^ frac + (if up then q + 1 else q)

/-- The pattern without its sign of a binary32 infinity. -/
def infinityBits32 : Nat := 0x7F800000

/-- The pattern without its sign of a binary64 infinity. -/
def infinityBits64 : Nat := 0x7FF0000000000000

/-- A binary32 pattern from its sign and the rest. -/
def withSign32 (neg : Bool) (bits : Nat) : Word32 :=
  BitVec.ofNat 32 (if neg then 2 ^ 31 + bits else bits)

/-- The binary32 pattern of a non-zero exact value in units of 2^-149: nearest, ties to even; an overflow gives the
infinity of its sign (R172). -/
def roundToFloat32 (v : Int) : Word32 :=
  withSign32 (decide (v < 0)) (min (roundUnits 23 v.natAbs 1) infinityBits32)

/-- The difference of two finite patterns (R172): an exact zero is +0.0, but -0.0 for (-0.0) - (+0.0). -/
def subFinite32 (x y : Word32) : Word32 :=
  let v := units32 x - units32 y
  if v = 0 then withSign32 (decide (magnitude32 x = 0) && signBit x && !signBit y) 0
  else roundToFloat32 v

/-- Binary32 subtraction `fsub32(x, y)` (R172). -/
def fsub32 (x y : Word32) : Word32 :=
  if isNaN32 x || isNaN32 y then Config.nanResult
  else if isInf32 x then
    if isInf32 y && signBit x == signBit y then Config.nanResult else x
  else if isInf32 y then y ^^^ 0x80000000
  else subFinite32 x y

end Sys2Proof.Machine
end

