-- ==== Sys2Proof/Machine/Planner.lean ====
section
/-! DEFINITION. The precision truncator (42_precision_truncator.md): exponents, required bit length, saturation,
derived widths, and PLAN. Its integers are exact (00_scope.md R9). -/

namespace Sys2Proof.Machine

open Sys2Proof

/-- The radius exponent, for every pattern (R141, R142). -/
def exp32 (r : Word32) : Int := (expField32 r : Int) - Config.bias32

/-- The error exponent, for every pattern (R143, R144). -/
def exp64 (e : Word64) : Int := (expField64 e : Int) - Config.bias64

/-- The required bit length before the clamps (R145). -/
def rawLength (eb : Word64) (rad : Word32) : Int :=
  Config.planBase + exp32 rad - exp64 eb + Config.planIncrement

/-- The planner's answer: reqLength and the effective median (R145). -/
structure PlanResult where
  reqLength : Nat
  effMedian : Word32
  deriving DecidableEq, Repr

/-- `plan`: the floor, then the ceiling with the reset of the median (R145). -/
def plan (eb : Word64) (rad med : Word32) : PlanResult :=
  let rl := max Config.planFloor (rawLength eb rad)
  if Config.planCeiling < rl then
    { reqLength := Config.planCeiling.toNat, effMedian := Config.saturatedMedian }
  else { reqLength := rl.toNat, effMedian := med }

/-- reqBytesLength (R146). -/
def reqBytes (rl : Nat) : Nat := ceilDiv rl 8

/-- rightShiftBits (R146). -/
def shiftBits (rl : Nat) : Nat := if rl % 8 ≠ 0 then 8 - rl % 8 else 0

/-- The plan of the configured registers (R140). -/
def State.planned (s : State) : PlanResult := plan s.errBound s.radius s.median

/-- The response value of PLAN: median, shift, rb and rl fields (R148). -/
def planValue (p : PlanResult) : Word64 :=
  (p.effMedian.setWidth 64 <<< 32) ||| (BitVec.ofNat 64 (shiftBits p.reqLength) <<< 16) |||
    (BitVec.ofNat 64 (reqBytes p.reqLength) <<< 8) ||| BitVec.ofNat 64 p.reqLength

/-- PLAN (R148): it writes no state. -/
def execPlan (s : State) : Host.Outcome State Fault Refusal :=
  .next (if s.planReady = false then s.raise .notReady else s.respond (planValue s.planned))

end Sys2Proof.Machine
end

