-- ==== Sys2Proof/Machine/Encoder.lean ====
section
/-! DEFINITION. The Delta-XOR Byte Encoder (43_delta_xor_encoder.md): the encoding of a block and COMPRESS. -/

namespace Sys2Proof.Machine

open Sys2Proof

/-- The transformed value of a sample (R171). -/
def transform (med : Word32) (shift : Nat) (x : Word32) : Word32 := fsub32 x med >>> shift

/-- The XOR chain: each transformed value against the one before, the first against `prev` (R173). -/
def xorDeltas : Word32 → List Word32 → List Word32
  | _, [] => []
  | prev, t :: ts => (t ^^^ prev) :: xorDeltas t ts

/-- LeadingByteCount of a whole 32-bit delta (R174, R185). -/
def leadingBytes (d : Word32) : BitVec 2 :=
  if d.extractLsb' 8 24 = 0 then 3
  else if d.extractLsb' 16 16 = 0 then 2
  else if d.extractLsb' 24 8 = 0 then 1
  else 0

/-- `sel(rb, L)`: the byte indices k with 4-rb <= k <= 3-L, rising (R175; the order is decision D15). -/
def selectedIndices (rb count : Nat) : List Nat :=
  (List.range 4).filter fun k => decide (4 ≤ rb + k) && decide (k + count ≤ 3)

/-- The bytes of one transformed value that are stored (R175). -/
def storedBytes (rb : Nat) (t : Word32) (count : BitVec 2) : List Byte :=
  (selectedIndices rb count.toNat).map (byteOf t)

/-- The residual stream, in element order (R176). -/
def residualStream (rb : Nat) : List Word32 → List (BitVec 2) → List Byte
  | t :: ts, l :: ls => storedBytes rb t l ++ residualStream rb ts ls
  | _, _ => []

/-- A count as an element byte of the packer. -/
def countByte (l : BitVec 2) : Byte := l.setWidth 8

/-- What the encoding yields: the output bytes and the leading byte counts (R179). -/
structure EncodedBlock where
  out    : List Byte
  counts : List (BitVec 2)
  deriving DecidableEq, Repr

/-- The encoding with a plan already made: header byte, median, packed counts, residual (R178, R179). -/
def encodePlanned (p : PlanResult) (samples : List Word32) : EncodedBlock :=
  let ts := samples.map (transform p.effMedian (shiftBits p.reqLength))
  let counts := (xorDeltas 0 ts).map leadingBytes
  { out := BitVec.ofNat 8 p.reqLength :: le32 p.effMedian ++
      (pack2 (counts.map countByte) ++ residualStream (reqBytes p.reqLength) ts counts)
    counts := counts }

/-- `encode(S, MED, EB, RAD)` (R179). -/
def encodeBlock (samples : List Word32) (med : Word32) (eb : Word64) (rad : Word32) : EncodedBlock :=
  encodePlanned (plan eb rad med) samples

/-- The encoding of the loaded block under the configured registers (R170). -/
def State.encoded (s : State) : EncodedBlock := encodeBlock s.block s.median s.errBound s.radius

/-- The bytes COMPRESS writes at DST, or its error, checks in the order of R243 (R180, R181). -/
def compressOutput (s : State) : Except Status (List Byte) :=
  if s.compressReady = false then .error .notReady
  else if reqBytes s.planned.reqLength = 4 then .error .unsupportedPrecision
  else if rangeOK s.platform s.dst.toNat s.encoded.out.length = false then .error .accessFault
  else .ok s.encoded.out

/-- COMPRESS (R180): the output at DST, its size answered, and LEAD written, on success only (R184). -/
def execCompress (s : State) : Host.Outcome State Fault Refusal :=
  .next (match compressOutput s with
    | .ok out => (s.deliver (.ok out)).setLead s.encoded.counts
    | .error e => s.deliver (.error e))

end Sys2Proof.Machine
end

