-- ==== Sys2Proof/Machine/Protocol.lean ====
section
/-! DEFINITION. The offload protocol (44_offload_protocol.md): CONFIGURE, SET_RADIUS, BULK_LOAD, SET_DST. -/

namespace Sys2Proof.Machine

open Sys2Proof

/-- CONFIGURE (R210): every operand value is stored as given. -/
def execConfigure (eb : Word64) (med : Word32) (s : State) : Host.Outcome State Fault Refusal :=
  .next ((s.setConfig eb med).respond 0)

/-- SET_RADIUS (R211). -/
def execSetRadius (r : Word32) (s : State) : Host.Outcome State Fault Refusal :=
  .next ((s.setRadius r).respond 0)

/-- SET_DST (R213): the address is not checked. -/
def execSetDst (d : Word64) (s : State) : Host.Outcome State Fault Refusal :=
  .next ((s.setDst d).respond 0)

/-- The samples BULK_LOAD takes, or its error, checks in the order of R243 (R212). -/
def loadedSamples (src : Word64) (n : Nat) (s : State) : Except Status (List Word32) :=
  if n ≤ s.platform.maxBlockLen then
    if rangeOK s.platform src.toNat (4 * n) then .ok (s.mem.readSamples src.toNat n)
    else .error .accessFault
  else .error .lengthRange

/-- BULK_LOAD (R212): a snapshot of memory (20_memory.md R61). -/
def execBulkLoad (src : Word64) (n : Nat) (s : State) : Host.Outcome State Fault Refusal :=
  .next (match loadedSamples src n s with
    | .ok block => (s.setBlock block).respond (BitVec.ofNat 64 n)
    | .error e => s.raise e)

end Sys2Proof.Machine
end

