-- ==== Sys2Proof/Machine/Dispatch.lean ====
section
/-! DEFINITION. One arm per command of the opcode map (30_encoding.md R82). -/

namespace Sys2Proof.Machine

open Sys2Proof

def exec (i : Instr) (s : State) : Host.Outcome State Fault Refusal :=
  match i with
  | .configure eb med => Sys2Proof.Machine.execConfigure eb med s
  | .setRadius r => Sys2Proof.Machine.execSetRadius r s
  | .bulkLoad src n => Sys2Proof.Machine.execBulkLoad src n s
  | .compress => Sys2Proof.Machine.execCompress s
  | .setDst d => Sys2Proof.Machine.execSetDst d s
  | .plan => Sys2Proof.Machine.execPlan s
  | .pack1 src n => Sys2Proof.Machine.execPack1 src n s
  | .pack2 src n => Sys2Proof.Machine.execPack2 src n s
  | .unpack1 src n => Sys2Proof.Machine.execUnpack1 src n s
  | .unpack2 src n => Sys2Proof.Machine.execUnpack2 src n s

end Sys2Proof.Machine
end

