-- ==== Sys2Proof/Machine/Port.lean ====
section
/-! DEFINITION. The command port and the unit's other inputs: accepting a command (30_encoding.md R80, R84, R89), the
host's own accesses to memory between commands (20_memory.md R58), reset (70_reset_and_hazards.md R270, R271) and
accesses that race a command (R275). Each open outcome of R271 and R275 is a free draw (log 6, log 16). -/

namespace Sys2Proof.Machine

open Sys2Proof

/-- One command: decoded and executed, or answered ILLEGAL_COMMAND (30_encoding.md R84, R87). -/
def execCommand (c : Command) (s : State) : Host.Outcome State Fault Refusal :=
  match decode c with
  | .ok i => exec i s
  | .error _ => .next (s.raise .illegalCommand)

/-- The bytes of a command that completes, none of one that raises (60_exceptions.md R244). -/
def bytesOf (r : Except Status (List Byte)) : List Byte :=
  match r with
  | .ok out => out
  | .error _ => []

/-- The bytes a command writes at DST (10_state.md R35). -/
def outputOf (i : Instr) (s : State) : List Byte :=
  match i with
  | .configure _ _ => []
  | .setRadius _ => []
  | .bulkLoad _ _ => []
  | .compress => bytesOf (compressOutput s)
  | .setDst _ => []
  | .plan => []
  | .pack1 src n => bytesOf (pack1Output src n s)
  | .pack2 src n => bytesOf (pack2Output src n s)
  | .unpack1 src n => bytesOf (unpack1Output src n s)
  | .unpack2 src n => bytesOf (unpack2Output src n s)

/-- The bytes the issued command writes at DST, none for an illegal word. -/
def commandOutput (c : Command) (s : State) : List Byte :=
  match decode c with
  | .ok i => outputOf i s
  | .error _ => []

/-- Bytes written from address `a` on, each one only if its draw says so (R271). -/
def writeDrawn : Nat → Memory → Nat → List Byte → Memory
  | _, m, _, [] => m
  | k, m, a, b :: bs => writeDrawn (k + 1) (if Config.draw k then m.write a b else m) (a + 1) bs

/-- The memory a command's reads see while the host writes: each of the host's bytes may have landed or not (R275). -/
def racedView : Nat → List HostAccess → Memory → Memory
  | _, [], m => m
  | k, .store a b :: rest, m => racedView (k + 1) rest (if Config.draw k then m.write a.toNat b else m)
  | k, .load _ :: rest, m => racedView (k + 1) rest m

/-- The memory with every byte the host writes stored. -/
def hostStored : List HostAccess → Memory → Memory
  | [], m => m
  | .store a b :: rest, m => hostStored rest (m.write a.toNat b)
  | .load _ :: rest, m => hostStored rest m

/-- The host writes this address during the command. -/
def hostWrites (accs : List HostAccess) (x : Nat) : Bool :=
  accs.any fun acc => match acc with
    | .store a _ => decide (a.toNat = x)
    | .load _ => false

/-- The unit's bytes laid over the host's: where both write, either value stays (R275). -/
def racedStore : Nat → List HostAccess → Memory → Nat → List Byte → Memory
  | _, _, m, _, [] => m
  | k, accs, m, a, b :: bs =>
    racedStore (k + 1) accs (if hostWrites accs a && Config.draw k then m else m.write a b) (a + 1) bs

/-- What the host reads during the command: of a byte the unit writes, the old or the new value (R275). -/
def racedReads : Nat → List HostAccess → Memory → Nat → List Byte → List Byte
  | _, [], _, _, _ => []
  | k, .store a b :: rest, m, base, out => racedReads (k + 1) rest (m.write a.toNat b) base out
  | k, .load a :: rest, m, base, out =>
    (if decide (base ≤ a.toNat) && decide (a.toNat < base + out.length) && Config.draw k
      then out.getD (a.toNat - base) 0 else m.read a.toNat) :: racedReads (k + 1) rest m base out

/-- Reset while the command is outstanding: no response, each byte of its write range old or new, the registers
reset (R271). What the host does to memory meanwhile races as it does with a command that completes (R275). -/
def State.abortedBy (s : State) (c : Command) (accs : List HostAccess) : State :=
  let out := commandOutput c { s with mem := racedView s.draws accs s.mem }
  let base := s.dst.toNat
  let k := s.draws + accs.length
  { s.afterReset with
    mem := writeDrawn k (hostStored accs s.mem) base out
    hostReads := s.hostReads ++ racedReads (k + out.length) accs s.mem base out
    draws := k + out.length + accs.length }

/-- A command during which the host accesses memory (R275). -/
def execRaced (c : Command) (accs : List HostAccess) (s : State) : Host.Outcome State Fault Refusal :=
  let v := { s with mem := racedView s.draws accs s.mem }
  let out := commandOutput c v
  let base := s.dst.toNat
  let k := s.draws + accs.length
  match execCommand c v with
  | .next t =>
    .next { t with
      mem := racedStore k accs (hostStored accs s.mem) base out
      hostReads := s.hostReads ++ racedReads (k + out.length) accs s.mem base out
      draws := k + out.length + accs.length }
  | .fault r => .fault r
  | .refused r => .refused r

/-- The first of a list of commands the host issues until one fails; the rest follow if its status is OK
(30_encoding.md R89). -/
def execUntilError (cs : List Command) (s : State) : Host.Outcome State Fault Refusal :=
  match cs with
  | [] => .next s
  | c :: rest =>
    match execCommand c s with
    | .next t => .next (if t.lastOk then { t with inbox := .untilError rest :: t.inbox } else t)
    | .fault r => .fault r
    | .refused r => .refused r

/-- What one input does (log 4). DESIGN CHOICE, unsafe (log 19): a store or load of the host's own is plain memory at
every address, Accessible to the unit's port or not; the spec ties only the port to Accessible (20_memory.md R53,
R55). -/
def receive (input : HostInput) (s : State) : Host.Outcome State Fault Refusal :=
  match input with
  | .command c => execCommand c s
  | .untilError cs => execUntilError cs s
  | .store a b => .next { s with mem := s.mem.write a.toNat b }
  | .load a => .next { s with hostReads := s.hostReads ++ [s.mem.read a.toNat] }
  | .reset => .next s.afterReset
  | .resetDuring c accs => .next (s.abortedBy c accs)
  | .resetBefore _ => .next s.afterReset
  | .raced c accs => execRaced c accs s
  | .early _ _ => .fault .commandPortBusy

end Sys2Proof.Machine
end

