-- ==== Sys2Proof/Machine/Step.lean ====
section
/-! DEFINITION. One step: the next input is taken and acted on. With no input the unit is idle
(60_exceptions.md R254). -/

namespace Sys2Proof.Machine

open Sys2Proof

/-- One step of the machine. -/
def step (s : State) : Host.Outcome State Fault Refusal :=
  match s.inbox with
  | [] => .next s
  | input :: rest => receive input { s with inbox := rest }

/-- The state in which the host issues the command of these table bits next (log 4, log 17). -/
def State.withFetchWord (s : State) (nbits w : Nat) : State :=
  { s with inbox := .command (commandOfBits nbits w) :: s.inbox }

end Sys2Proof.Machine
end

