-- ==== Sys2Proof/Machine/Assembler.lean ====
section
/-! DEFINITION. The assembler notation of the spec's test programs (30_encoding.md R88), from the characters of a line
to what the host does, and the pseudo-command ENCODE_BLOCK (R89). The machine never sees it. -/

namespace Sys2Proof.Machine

open Sys2Proof

/-- An operand of an assembler line: a literal, or the decimal `digits / 10^scale` with its sign (R88). -/
inductive AsmOperand where
  | literal (n : Nat)
  | f32 (neg : Bool) (digits scale : Nat)
  | f64 (neg : Bool) (digits scale : Nat)
  deriving DecidableEq, Repr

/-- One line: a mnemonic and its operands (R88). -/
structure AsmLine where
  op       : Op
  operands : List AsmOperand
  deriving DecidableEq, Repr

/-- The binary32 pattern of an exactly representable decimal (R88). -/
def f32Pattern (neg : Bool) (digits scale : Nat) : Option Word32 :=
  let bits := roundUnits 23 (digits * 2 ^ 149) (10 ^ scale)
  let w := withSign32 neg bits
  if bits < infinityBits32 ∧ magnitude32 w * 10 ^ scale = digits * 2 ^ 149 then some w else none

/-- The binary64 pattern of a decimal rounded to nearest (R88). DESIGN CHOICE, safe (log 18): ties go to even, and a
decimal that rounds beyond the largest finite value gives the infinity of its sign; R88 names neither. -/
def f64Pattern (neg : Bool) (digits scale : Nat) : Word64 :=
  let bits := min (roundUnits 52 (digits * 2 ^ 1074) (10 ^ scale)) infinityBits64
  BitVec.ofNat 64 (if neg then 2 ^ 63 + bits else bits)

/-- The 64-bit operand word an operand stands for (R88). -/
def operandWord : AsmOperand → Option Word64
  | .literal n => if n < 2 ^ 64 then some (BitVec.ofNat 64 n) else none
  | .f32 neg d k =>
    match f32Pattern neg d k with
    | some w => some (w.setWidth 64)
    | none => none
  | .f64 neg d k => some (f64Pattern neg d k)

/-- How many operands a command's line has: those it does not ignore (R82, R88). -/
def operandCount : Op → Nat
  | .configure => 2
  | .setRadius => 1
  | .bulkLoad => 2
  | .compress => 0
  | .setDst => 1
  | .plan => 0
  | .pack1 => 2
  | .pack2 => 2
  | .unpack1 => 2
  | .unpack2 => 2

/-- The operand words of a list of operands, if every one has one. -/
def operandWords : List AsmOperand → Option (List Word64)
  | [] => some []
  | o :: os =>
    match operandWord o, operandWords os with
    | some w, some ws => some (w :: ws)
    | _, _ => none

/-- The command triple of a line; operands left out are zero words (R88). -/
def assembleLine (l : AsmLine) : Option Command :=
  match operandWords l.operands with
  | some ws =>
    if ws.length = operandCount l.op then
      some { word := opCode l.op, a := ws.getD 0 0, b := ws.getD 1 0 }
    else none
  | none => none

/-- The commands ENCODE_BLOCK expands to, in order; the host issues them with `HostInput.untilError` (R89). -/
def encodeBlockCommands (eb med rad src len dst : Word64) : List Command :=
  [ { word := opCode .setDst, a := dst, b := 0 },
    { word := opCode .configure, a := eb, b := med },
    { word := opCode .setRadius, a := rad, b := 0 },
    { word := opCode .bulkLoad, a := src, b := len },
    { word := opCode .compress, a := 0, b := 0 } ]

/-- A line of assembler text: nothing but space and comment, a command, or ENCODE_BLOCK (R88, R89). -/
inductive AsmStatement where
  | blank
  | command (line : AsmLine)
  | encodeBlock (operands : List AsmOperand)
  deriving DecidableEq, Repr

/-- The value of a digit, decimal or hexadecimal in either case. -/
def digitValue (c : Char) : Option Nat :=
  if 48 ≤ c.toNat ∧ c.toNat ≤ 57 then some (c.toNat - 48)
  else if 97 ≤ c.toNat ∧ c.toNat ≤ 102 then some (c.toNat - 87)
  else if 65 ≤ c.toNat ∧ c.toNat ≤ 70 then some (c.toNat - 55)
  else none

/-- The number that digits of the given radix write after `acc`. -/
def digitsAfter (radix : Nat) : Nat → List Char → Option Nat
  | acc, [] => some acc
  | acc, c :: cs =>
    match digitValue c with
    | some d => if d < radix then digitsAfter radix (radix * acc + d) cs else none
    | none => none

/-- The number that one or more digits of the given radix write. -/
def readDigits (radix : Nat) (cs : List Char) : Option Nat :=
  if cs = [] then none else digitsAfter radix 0 cs

/-- An unsigned integer literal, decimal or `0x` hexadecimal (R88). -/
def readLiteral (cs : List Char) : Option Nat :=
  match cs with
  | '0' :: 'x' :: hex => readDigits 16 hex
  | _ => readDigits 10 cs

/-- The characters before the first `mark` and those after it, if it occurs. -/
def splitFirst (mark : Char) : List Char → List Char × Option (List Char)
  | [] => ([], none)
  | c :: cs =>
    if c = mark then ([], some cs)
    else
      let r := splitFirst mark cs
      (c :: r.1, r.2)

/-- The characters cut at each comma; there is always one part. -/
def splitCommas : List Char → List (List Char)
  | [] => [[]]
  | c :: cs =>
    match splitCommas cs with
    | [] => [[c]]
    | part :: parts => if c = ',' then [] :: part :: parts else (c :: part) :: parts

/-- The characters without the spaces before and after them. -/
def trimSpaces (cs : List Char) : List Char :=
  ((cs.dropWhile (· = ' ')).reverse.dropWhile (· = ' ')).reverse

/-- A decimal, as its sign, its digits and how many of them follow the point. -/
def readDecimal (cs : List Char) : Option (Bool × Nat × Nat) :=
  let neg := cs.head? = some '-'
  let body := if neg then cs.drop 1 else cs
  match splitFirst '.' body with
  | (whole, none) => (readDigits 10 whole).map fun n => (decide neg, n, 0)
  | (whole, some frac) =>
    if whole = [] ∨ frac = [] then none
    else (readDigits 10 (whole ++ frac)).map fun n => (decide neg, n, frac.length)

/-- An operand: a literal, `f32(<decimal>)` or `f64(<decimal>)` (R88). -/
def readOperand (cs : List Char) : Option AsmOperand :=
  match cs with
  | 'f' :: '3' :: '2' :: '(' :: rest =>
    match splitFirst ')' rest with
    | (inner, some []) => (readDecimal inner).map fun d => .f32 d.1 d.2.1 d.2.2
    | _ => none
  | 'f' :: '6' :: '4' :: '(' :: rest =>
    match splitFirst ')' rest with
    | (inner, some []) => (readDecimal inner).map fun d => .f64 d.1 d.2.1 d.2.2
    | _ => none
  | _ => (readLiteral cs).map .literal

/-- Operands read in turn, if every one can be. -/
def readOperands : List (List Char) → Option (List AsmOperand)
  | [] => some []
  | part :: parts =>
    match readOperand (trimSpaces part), readOperands parts with
    | some o, some os => some (o :: os)
    | _, _ => none

/-- The mnemonic of an operation (R82). -/
def mnemonic : Op → List Char
  | .configure => "CONFIGURE".toList
  | .setRadius => "SET_RADIUS".toList
  | .bulkLoad => "BULK_LOAD".toList
  | .compress => "COMPRESS".toList
  | .setDst => "SET_DST".toList
  | .plan => "PLAN".toList
  | .pack1 => "PACK1".toList
  | .pack2 => "PACK2".toList
  | .unpack1 => "UNPACK1".toList
  | .unpack2 => "UNPACK2".toList

/-- The operation a mnemonic names. -/
def opOfMnemonic (cs : List Char) : Option Op :=
  [Op.configure, .setRadius, .bulkLoad, .compress, .setDst, .plan, .pack1, .pack2, .unpack1, .unpack2].find?
    fun op => decide (mnemonic op = cs)

/-- One line of text: a comment from `;` on, a mnemonic, and operands parted by commas (R88, R89). -/
def readLine (cs : List Char) : Option AsmStatement :=
  let text := trimSpaces (splitFirst ';' cs).1
  if text = [] then some .blank
  else
    let name := (splitFirst ' ' text).1
    let operands :=
      match (splitFirst ' ' text).2 with
      | none => some []
      | some rest => readOperands (splitCommas rest)
    match operands with
    | none => none
    | some os =>
      if name = "ENCODE_BLOCK".toList then some (.encodeBlock os)
      else (opOfMnemonic name).map fun op => .command ⟨op, os⟩

/-- What the host does for a line: nothing, a command, or the list of ENCODE_BLOCK, whose operands are
`eb, med, rad, src, len, dst` (R88, R89). -/
def assembleStatement (st : AsmStatement) : Option (List HostInput) :=
  match st with
  | .blank => some []
  | .command l => (assembleLine l).map fun c => [.command c]
  | .encodeBlock os =>
    match operandWords os with
    | some [eb, med, rad, src, len, dst] =>
      some [.untilError (encodeBlockCommands eb med rad src len dst)]
    | _ => none

/-- What the host does for a program text, one line after another (R80, R88). -/
def assembleProgram : List (List Char) → Option (List HostInput)
  | [] => some []
  | line :: lines =>
    match (readLine line).bind assembleStatement, assembleProgram lines with
    | some xs, some ys => some (xs ++ ys)
    | _, _ => none

end Sys2Proof.Machine
end

