-- ==== Sys2Proof/Machine/Inverse.lean ====
section
/-! DEFINITION. The structural inverse of the encoding, as the invertibility law gives it (43_delta_xor_encoder.md
R186). It is no command of the unit; statements are made with it. -/

namespace Sys2Proof.Machine

open Sys2Proof

/-- `0xFFFFFFFF << (32 - 8*rb)`: the top rb bytes (R186). -/
def keptMask (rb : Nat) : Word32 := 0xFFFFFFFF <<< (32 - 8 * rb)

/-- The value with byte k replaced (R186). -/
def replaceByte (v : Word32) (k : Nat) (b : Byte) : Word32 :=
  (v &&& ~~~((0xFF : Word32) <<< (8 * k))) ||| (b.setWidth 32 <<< (8 * k))

/-- The values q_i of R186, from the value before, the counts and the residual bytes. -/
def recoverKept (rb : Nat) : Word32 → List (BitVec 2) → List Byte → List Word32
  | _, [], _ => []
  | prev, l :: ls, bytes =>
    let ks := selectedIndices rb l.toNat
    let q := (ks.zip bytes).foldl (fun v kb => replaceByte v kb.1 kb.2) (prev &&& keptMask rb)
    q :: recoverKept rb q ls (bytes.drop ks.length)

/-- The kept bits of the transformed values, recovered from an output block and its element count (R186). -/
def decodeBlock (out : List Byte) (n : Nat) : List Word32 :=
  let rb := reqBytes (out.getD 0 0).toNat
  let counts := (unpack2 ((out.drop 5).take (ceilDiv n 4)) n).map fun b => b.setWidth 2
  recoverKept rb 0 counts (out.drop (5 + ceilDiv n 4))

end Sys2Proof.Machine
end

