-- ==== Sys2Proof/Safety.lean ====
section
/-! DEFINITION. The terms statements are made in: the machine's invariant, the host's discipline, and when two states
are the same to the host. -/

namespace Sys2Proof.Machine

open Sys2Proof

/-- What holds in every reachable state: memory in canonical form, MAX_BLOCK_LEN in its range (00_scope.md R7), BLKLEN
and the arrays within MAX_BLOCK_LEN (10_state.md R20, R25), and no block without LOAD_V (R36). -/
abbrev State.Inv (s : State) : Prop :=
  s.mem.wf = true ∧
  1 ≤ s.platform.maxBlockLen ∧ s.platform.maxBlockLen < 2 ^ 62 ∧
  s.blkLen ≤ s.samples.length ∧ s.samples.length ≤ s.platform.maxBlockLen ∧
  s.lead.length ≤ s.platform.maxBlockLen ∧
  (s.loadV = false → s.blkLen = 0)

/-- The input keeps the rule of one outstanding command (70_reset_and_hazards.md R274). -/
def keepsPortRule : HostInput → Bool
  | .command _ => true
  | .untilError _ => true
  | .store _ _ => true
  | .load _ => true
  | .reset => true
  | .resetDuring _ _ => true
  | .resetBefore _ => true
  | .raced _ _ => true
  | .early _ _ => false

/-- The input asserts reset. -/
def assertsReset : HostInput → Bool
  | .command _ => false
  | .untilError _ => false
  | .store _ _ => false
  | .load _ => false
  | .reset => true
  | .resetDuring _ _ => true
  | .resetBefore _ => true
  | .raced _ _ => false
  | .early _ _ => false

/-- Two states that differ at most in what the spec leaves unspecified: registers whose valid bit is 0, samples at
BLKLEN and above, and LEAD (10_state.md R26, R28, R36). -/
def State.SameToHost (s t : State) : Prop :=
  s.cfgV = t.cfgV ∧ s.radV = t.radV ∧ s.loadV = t.loadV ∧ s.dstV = t.dstV ∧
  (s.cfgV = true → s.errBound = t.errBound ∧ s.median = t.median) ∧
  (s.radV = true → s.radius = t.radius) ∧
  (s.dstV = true → s.dst = t.dst) ∧
  s.blkLen = t.blkLen ∧ (∀ i, i < s.blkLen → s.sample i = t.sample i) ∧
  s.mem = t.mem ∧ s.platform = t.platform ∧ s.inbox = t.inbox ∧ s.responses = t.responses ∧
  s.hostReads = t.hostReads ∧ s.draws = t.draws

/-- `RangeOK(a, n)` in the words of 20_memory.md R53. -/
def RangeAllowed (p : Platform) (a n : Nat) : Prop :=
  a + n ≤ 2 ^ 64 ∧ ∀ x, a ≤ x → x < a + n → accessible p x = true

/-- `t` is `s` after a command stored `out` at DST and did nothing else: each byte of `out` is read at its address,
every address outside the stored bytes reads as before, and no register changed. -/
def StoredOnly (s t : State) (out : List Byte) : Prop :=
  (∀ j (hj : j < out.length), t.mem.read (s.dst.toNat + j) = out[j]) ∧
  (∀ x, x < s.dst.toNat ∨ s.dst.toNat + out.length ≤ x → t.mem.read x = s.mem.read x) ∧
  t = { s with mem := t.mem, responses := t.responses }

/-- The pattern is not a binary64 NaN. -/
def notNaN64 (x : Word64) : Bool := decide (expField64 x ≠ 2047) || decide (fracField64 x = 0)

/-- The magnitude of a binary64 pattern that is no NaN, in units of 2^-1074; infinity is above every finite one. -/
def magnitude64 (x : Word64) : Nat :=
  if expField64 x = 0 then fracField64 x
  else (2 ^ 52 + fracField64 x) * 2 ^ (expField64 x - 1)

end Sys2Proof.Machine
end

