-- ==== Sys2Proof/Certificates/Slice0/Obligations.lean ====
section
/-! DEFINITION. The statements for the provers. Each docstring names the rule of spec/ it formalises. -/

open Sys2Proof Sys2Proof.Machine

/-! ## Encoding -/

/-- O1. R81, R82, R83, R87: the decoder reads back what the encoder writes, for every well-formed command. -/
def Obligations.EncodedCommandsDecodeBack : Prop :=
  ∀ i : Instr, i.wf = true → decode (encode i) = .ok i

/-- O2. R82, R83: what the decoder reads is well formed, keeps the command word, and is encoded by a triple that
decodes alike. -/
def Obligations.DecodedCommandsAreWellFormed : Prop :=
  ∀ (c : Command) (i : Instr), decode c = .ok i →
    i.wf = true ∧ (encode i).word = c.word ∧ decode (encode i) = decode c

/-- O3. R81: OP is bits 7:0 and RSV bits 31:8; a word is legal exactly when OP is one of the ten codes and RSV is 0.
-/
def Obligations.LegalWordsAreTheTenCodes : Prop :=
  ∀ c : Command,
    (opField c.word).toNat = c.word.toNat % 2 ^ 8 ∧
    (rsvField c.word).toNat = c.word.toNat / 2 ^ 8 ∧
    ((∃ i, decode c = .ok i) ↔
      rsvField c.word = 0 ∧ 1 ≤ (opField c.word).toNat ∧ (opField c.word).toNat ≤ 10)

/-- O4. R84: a command whose word is not legal ends with ILLEGAL_COMMAND and value 0 and changes no state. -/
def Obligations.IllegalWordChangesNothing : Prop :=
  ∀ (c : Command) (s : State),
    ¬ (rsvField c.word = 0 ∧ 1 ≤ (opField c.word).toNat ∧ (opField c.word).toNat ≤ 10) →
    execCommand c s =
      .next { s with responses := s.responses ++ [⟨.illegalCommand, 0⟩] }

/-- O5. R82, R83: which operand bits each command takes; the others are ignored whatever their value, since what is
decoded, and so what is executed, does not depend on them. -/
def Obligations.OperandsAreTakenAsTabled : Prop :=
  (∀ a b : Word64,
    decode ⟨0x00000001, a, b⟩ = .ok (.configure a (b.extractLsb' 0 32)) ∧
    decode ⟨0x00000002, a, b⟩ = .ok (.setRadius (a.extractLsb' 0 32)) ∧
    decode ⟨0x00000003, a, b⟩ = .ok (.bulkLoad a b.toNat) ∧
    decode ⟨0x00000004, a, b⟩ = .ok .compress ∧
    decode ⟨0x00000005, a, b⟩ = .ok (.setDst a) ∧
    decode ⟨0x00000006, a, b⟩ = .ok .plan ∧
    decode ⟨0x00000007, a, b⟩ = .ok (.pack1 a b.toNat) ∧
    decode ⟨0x00000008, a, b⟩ = .ok (.pack2 a b.toNat) ∧
    decode ⟨0x00000009, a, b⟩ = .ok (.unpack1 a b.toNat) ∧
    decode ⟨0x0000000A, a, b⟩ = .ok (.unpack2 a b.toNat)) ∧
  (∀ (c : Command) (i : Instr) (s : State), decode c = .ok i → execCommand c s = exec i s)

/-- O6. R82: words of the opcode table written out, read as the table numbers their bits. That a word given with 32
bits has both operand words 0 is the model's choice (log 17). -/
def Obligations.TableWordsDecode : Prop :=
  decodeTableWord 32 0x00000001 = some (.configure 0 0) ∧
  decodeTableWord 32 0x00000002 = some (.setRadius 0) ∧
  decodeTableWord 32 0x00000003 = some (.bulkLoad 0 0) ∧
  decodeTableWord 32 0x00000004 = some .compress ∧
  decodeTableWord 32 0x00000006 = some .plan ∧
  decodeTableWord 32 0x0000000A = some (.unpack2 0 0) ∧
  decodeTableWord 32 0x0000000B = none ∧
  decodeTableWord 32 0x00000104 = none

/-! ## Steps -/

/-- O7. R80: when the host issues a command that decodes to i, the step is exec of i, with that input taken from the
host's list and nothing else around it; the same for a command placed by `withFetchWord`. How inputs are listed and
placed is the model's choice (log 4, log 17). -/
def Obligations.StepRunsIssuedCommand : Prop :=
  (∀ (s : State) (c : Command) (i : Instr) (rest : List HostInput),
    s.inbox = .command c :: rest → decode c = .ok i → i.wf = true →
    step s = exec i { s with inbox := rest }) ∧
  (∀ (s : State) (nbits w : Nat) (i : Instr),
    decodeTableWord nbits w = some i → step (s.withFetchWord nbits w) = exec i s)

/-- O8. R254: between commands the unit is idle, and idling changes no state. The list of inputs is the model's (log
4). -/
def Obligations.IdleUnitKeepsState : Prop :=
  ∀ s : State, s.inbox = [] → step s = .next s

/-- O9. R280, R80: every command the host issues completes, with exactly one response, whatever the state. Progress
is the spec's own assumption (log 11). -/
def Obligations.EveryCommandIsAnsweredOnce : Prop :=
  ∀ (s : State) (c : Command) (rest : List HostInput),
    (s.inbox = .command c :: rest →
      ∃ t r, step s = .next t ∧ t.responses = s.responses ++ [r] ∧ t.inbox = rest) ∧
    (∀ accs, s.inbox = .raced c accs :: rest →
      ∃ t r, step s = .next t ∧ t.responses = s.responses ++ [r] ∧ t.inbox = rest)

/-- O10. R244: a command that ends with any status other than OK writes no register and no byte of memory and returns
value 0: the state is as before but for the response. -/
def Obligations.FailedCommandChangesNothing : Prop :=
  ∀ (c : Command) (s : State), ∃ t r,
    execCommand c s = .next t ∧ t.responses = s.responses ++ [r] ∧
    (r.status ≠ .ok → r.value = 0 ∧ t = { s with responses := s.responses ++ [r] })

/-- O11. R274, R280 and decision D27: a command issued while another is outstanding has no next state, and no other
input lacks one. The named fault is the model's choice (log 7), and so is the list of inputs (log 4). -/
def Obligations.OnlyAnEarlyCommandStops : Prop :=
  (∀ s : State,
    (∃ t, step s = .next t) ∨
    (step s = .fault .commandPortBusy ∧ ∃ c c' rest, s.inbox = .early c c' :: rest)) ∧
  (∀ (s : State) (c c' : Command) (rest : List HostInput), s.inbox = .early c c' :: rest →
    step s = .fault .commandPortBusy)

/-- O12. R7, R20, R25, R50: every step keeps memory in canonical form, MAX_BLOCK_LEN in its range, BLKLEN and the
arrays within it, and no block without LOAD_V. The forms of memory and of the arrays are the model's (log 1, log 9).
-/
def Obligations.StepKeepsMachineForm : Prop :=
  ∀ s t : State, s.Inv → step s = .next t → t.Inv

/-- O13. R7, R36: that form holds after reset, for every value of the OPEN parameters. The OPEN parameters are
opaque here (log 3), and the spec's reset values are all it rests on but for the empty lists (log 9). -/
def Obligations.ResetHasMachineForm : Prop :=
  State.Inv State.reset

/-! ## Memory, range check and reset -/

/-- O14. R55: between commands a byte written is what is read, a write has no effect beyond its byte, and a read
changes nothing but what the host holds. The host's record is the model's (log 5), and so is that an address which is
not Accessible is plain memory to the host too (log 19). -/
def Obligations.HostStoresAreReadBack : Prop :=
  ∀ (s : State) (a : Word64) (b : Byte) (rest : List HostInput), s.mem.wf = true →
    (s.inbox = .store a b :: rest →
      ∃ t, step s = .next t ∧ t.mem.read a.toNat = b ∧
        (∀ x, x ≠ a.toNat → t.mem.read x = s.mem.read x) ∧
        t = { s with inbox := rest, mem := t.mem }) ∧
    (s.inbox = .load a :: rest →
      step s = .next { s with inbox := rest, hostReads := s.hostReads ++ [s.mem.read a.toNat] })

/-- O15. R53: the range check answers exactly whether the range ends at or below 2^64 and every address in it is
Accessible, that is, exists and lies in no inaccessible region. Regions are the model's form of Accessible (log 3). -/
def Obligations.RangeCheckIsExact : Prop :=
  (∀ (p : Platform) (x : Nat),
    accessible p x = true ↔
      x < 2 ^ 64 ∧ ∀ r ∈ p.inaccessible, x < r.base ∨ r.base + r.size ≤ x) ∧
  (∀ (p : Platform) (a : Word64) (n : Nat),
    rangeOK p a.toNat n = true ↔ RangeAllowed p a.toNat n)

/-- O16. From R270: reset makes every valid bit 0 and BLKLEN 0, touches no host memory, and the unit then waits for
the host; nothing is said of the registers R36 leaves unspecified. That the inbox is empty in `State.reset` is the
model's choice (log 4), and that the reset input leaves the rest of the inbox is too (log 8). -/
def Obligations.ResetClearsValidBits : Prop :=
  (State.reset.cfgV = false ∧ State.reset.radV = false ∧ State.reset.loadV = false ∧
    State.reset.dstV = false ∧ State.reset.blkLen = 0 ∧ State.reset.inbox = []) ∧
  (∀ (s : State) (rest : List HostInput), s.inbox = .reset :: rest →
    ∃ t, step s = .next t ∧
      t.cfgV = false ∧ t.radV = false ∧ t.loadV = false ∧ t.dstV = false ∧ t.blkLen = 0 ∧
      t.mem = s.mem ∧ t.inbox = rest)

/-- O17. From R271 (and R275 where the host accesses memory meanwhile): reset while a command is outstanding gives
no response and clears the valid bits and BLKLEN; each byte of memory is as before the command, or one the host wrote
there, or, in the command's write range only, the command's own byte; a host read gives one of these too; a command
not yet accepted is lost, with memory, responses and host reads as before. Nothing is said of the registers R36 leaves
unspecified. The model's choices are the inputs (log 14, log 15), that the rest of the inbox, the parameters and the
host's records are kept (log 8), how races are drawn (log 16), and that every address is plain memory to the host
(log 19). -/
def Obligations.ResetDuringCommandLeavesOldOrNew : Prop :=
  ∀ (s : State) (c : Command) (accs : List HostAccess) (rest : List HostInput), s.mem.wf = true →
    (s.inbox = .resetDuring c accs :: rest →
      ∃ (v : Memory) (t : State),
        (∀ x, v.read x = s.mem.read x ∨
          ∃ a b, .store a b ∈ accs ∧ a.toNat = x ∧ v.read x = b) ∧
        (accs = [] → v = s.mem) ∧
        step s = .next t ∧
        (∀ x,
          (hostWrites accs x = false ∧ t.mem.read x = s.mem.read x) ∨
          (∃ a b, .store a b ∈ accs ∧ a.toNat = x ∧ t.mem.read x = b) ∨
          (∃ j, ∃ hj : j < (commandOutput c { s with inbox := rest, mem := v }).length,
            x = s.dst.toNat + j ∧
            t.mem.read x = (commandOutput c { s with inbox := rest, mem := v })[j])) ∧
        (∃ reads : List Byte, t.hostReads = s.hostReads ++ reads ∧
          List.Forall₂
            (fun (a : Word64) (r : Byte) =>
              r = s.mem.read a.toNat ∨
              (∃ b, .store a b ∈ accs ∧ r = b) ∨
              (∃ j, ∃ hj : j < (commandOutput c { s with inbox := rest, mem := v }).length,
                a.toNat = s.dst.toNat + j ∧
                r = (commandOutput c { s with inbox := rest, mem := v })[j]))
            (accs.filterMap fun acc => match acc with
              | .load a => some a
              | .store _ _ => none)
            reads) ∧
        t.responses = s.responses ∧ t.inbox = rest ∧ t.platform = s.platform ∧
        t.cfgV = false ∧ t.radV = false ∧ t.loadV = false ∧ t.dstV = false ∧ t.blkLen = 0) ∧
    (s.inbox = .resetBefore c :: rest →
      ∃ t, step s = .next t ∧
        t.cfgV = false ∧ t.radV = false ∧ t.loadV = false ∧ t.dstV = false ∧ t.blkLen = 0 ∧
        t.mem = s.mem ∧ t.responses = s.responses ∧ t.hostReads = s.hostReads ∧
        t.inbox = rest ∧ t.platform = s.platform)

/-- O18. From R275: with the host accessing memory during a command, the unit's reads see each raced byte old or
new, each byte the unit writes ends with either writer's value, every other byte is the host's last or the old one,
and a host read gives an old or a new value. How races are drawn is in log 16; every address is plain memory to the
host (log 19). -/
def Obligations.RacedBytesAreOldOrNew : Prop :=
  ∀ (s : State) (c : Command) (accs : List HostAccess) (rest : List HostInput), s.mem.wf = true →
    s.inbox = .raced c accs :: rest →
    ∃ (v : Memory) (t u : State) (reads : List Byte),
      (∀ x, v.read x = s.mem.read x ∨ ∃ a b, .store a b ∈ accs ∧ a.toNat = x ∧ v.read x = b) ∧
      execCommand c { s with inbox := rest, mem := v } = .next u ∧
      step s = .next t ∧
      t = { u with mem := t.mem, hostReads := s.hostReads ++ reads, draws := t.draws } ∧
      (∀ j (hj : j < (commandOutput c { s with inbox := rest, mem := v }).length),
        t.mem.read (s.dst.toNat + j) = (commandOutput c { s with inbox := rest, mem := v })[j] ∨
        ∃ a b, .store a b ∈ accs ∧ a.toNat = s.dst.toNat + j ∧
          t.mem.read (s.dst.toNat + j) = b) ∧
      (∀ x, (x < s.dst.toNat ∨
          s.dst.toNat + (commandOutput c { s with inbox := rest, mem := v }).length ≤ x) →
        (hostWrites accs x = true →
          ∃ a b, .store a b ∈ accs ∧ a.toNat = x ∧ t.mem.read x = b) ∧
        (hostWrites accs x = false → t.mem.read x = s.mem.read x)) ∧
      List.Forall₂
        (fun (a : Word64) (r : Byte) =>
          r = s.mem.read a.toNat ∨
          (∃ b, .store a b ∈ accs ∧ r = b) ∨
          (∃ j, ∃ hj : j < (commandOutput c { s with inbox := rest, mem := v }).length,
            a.toNat = s.dst.toNat + j ∧
            r = (commandOutput c { s with inbox := rest, mem := v })[j]))
        (accs.filterMap fun acc => match acc with
          | .load a => some a
          | .store _ _ => none)
        reads

/-! ## The offload protocol -/

/-- O19. R210: CONFIGURE stores every bound and median as given, sets CFG_V, answers 0, and changes nothing else. -/
def Obligations.ConfigureStoresBoundAndMedian : Prop :=
  (∀ a b : Word64, decode ⟨0x00000001, a, b⟩ = .ok (.configure a (b.extractLsb' 0 32))) ∧
  (∀ (eb : Word64) (med : Word32) (s : State),
    exec (.configure eb med) s =
      .next { s with
        errBound := eb, median := med, cfgV := true,
        responses := s.responses ++ [⟨.ok, 0⟩] })

/-- O20. R211: SET_RADIUS stores every radius as given, sets RAD_V, answers 0, and changes nothing else. -/
def Obligations.SetRadiusStoresRadius : Prop :=
  (∀ a b : Word64, decode ⟨0x00000002, a, b⟩ = .ok (.setRadius (a.extractLsb' 0 32))) ∧
  (∀ (r : Word32) (s : State),
    exec (.setRadius r) s =
      .next { s with radius := r, radV := true, responses := s.responses ++ [⟨.ok, 0⟩] })

/-- O21. R213: SET_DST stores the address unchecked, sets DST_V, answers 0, and changes nothing else. -/
def Obligations.SetDstStoresAddress : Prop :=
  (∀ a b : Word64, decode ⟨0x00000005, a, b⟩ = .ok (.setDst a)) ∧
  (∀ (d : Word64) (s : State),
    exec (.setDst d) s =
      .next { s with dst := d, dstV := true, responses := s.responses ++ [⟨.ok, 0⟩] })

/-- O22. R212: BULK_LOAD copies the little-endian samples into SAMPLES, sets BLKLEN and LOAD_V and answers the count;
later elements and everything else stay. LENGTH_RANGE comes before ACCESS_FAULT, and either leaves the state. -/
def Obligations.BulkLoadTakesSnapshot : Prop :=
  (∀ a b : Word64, decode ⟨0x00000003, a, b⟩ = .ok (.bulkLoad a b.toNat)) ∧
  (∀ (src : Word64) (n : Nat) (s : State),
    (n ≤ s.platform.maxBlockLen → rangeOK s.platform src.toNat (4 * n) = true →
      ∃ t, exec (.bulkLoad src n) s = .next t ∧
        (∀ i, i < n → (t.sample i).toNat =
          (s.mem.read (src.toNat + 4 * i)).toNat +
          2 ^ 8 * (s.mem.read (src.toNat + 4 * i + 1)).toNat +
          2 ^ 16 * (s.mem.read (src.toNat + 4 * i + 2)).toNat +
          2 ^ 24 * (s.mem.read (src.toNat + 4 * i + 3)).toNat) ∧
        (∀ i, n ≤ i → t.sample i = s.sample i) ∧
        t = { s with
          samples := t.samples, blkLen := n, loadV := true,
          responses := s.responses ++ [⟨.ok, BitVec.ofNat 64 n⟩] }) ∧
    (s.platform.maxBlockLen < n →
      exec (.bulkLoad src n) s =
        .next { s with responses := s.responses ++ [⟨.lengthRange, 0⟩] }) ∧
    (n ≤ s.platform.maxBlockLen → rangeOK s.platform src.toNat (4 * n) = false →
      exec (.bulkLoad src n) s =
        .next { s with responses := s.responses ++ [⟨.accessFault, 0⟩] }))

/-! ## The precision truncator -/

/-- O23. R148: PLAN answers the fields of the plan and writes no state; NOT_READY without CFG_V and RAD_V. -/
def Obligations.PlanReportsWidthsAndMedian : Prop :=
  (∀ a b : Word64, decode ⟨0x00000006, a, b⟩ = .ok .plan) ∧
  (∀ s : State,
    (s.cfgV = true → s.radV = true →
      ∃ v : Word64,
        exec .plan s = .next { s with responses := s.responses ++ [⟨.ok, v⟩] } ∧
        (v.extractLsb' 0 8).toNat = (plan s.errBound s.radius s.median).reqLength ∧
        (v.extractLsb' 8 8).toNat = reqBytes (plan s.errBound s.radius s.median).reqLength ∧
        (v.extractLsb' 16 8).toNat = shiftBits (plan s.errBound s.radius s.median).reqLength ∧
        v.extractLsb' 24 8 = 0 ∧
        v.extractLsb' 32 32 = (plan s.errBound s.radius s.median).effMedian) ∧
    (s.cfgV = false ∨ s.radV = false →
      exec .plan s = .next { s with responses := s.responses ++ [⟨.notReady, 0⟩] }))

/-- O24. R141, R142, R143, R144: the exponent fields, unbiased, for every pattern. -/
def Obligations.ExponentsOfEveryPattern : Prop :=
  (∀ r : Word32,
    exp32 r = (r.toNat / 2 ^ 23 % 2 ^ 8 : Nat) - 127 ∧ -127 ≤ exp32 r ∧ exp32 r ≤ 128 ∧
    (r.extractLsb' 23 8 = 0 → exp32 r = -127) ∧ (r.extractLsb' 23 8 = 255 → exp32 r = 128)) ∧
  (∀ e : Word64,
    exp64 e = (e.toNat / 2 ^ 52 % 2 ^ 11 : Nat) - 1023 ∧ -1023 ≤ exp64 e ∧ exp64 e ≤ 1024 ∧
    (e.extractLsb' 52 11 = 0 → exp64 e = -1023) ∧
    (e.extractLsb' 52 11 = 2047 → exp64 e = 1024))

/-- O25. R145: the required bit length with its floor and its ceiling, and the median reset with the ceiling only. -/
def Obligations.PlanClampsLength : Prop :=
  ∀ (eb : Word64) (rad med : Word32),
    (9 + exp32 rad - exp64 eb + 1 < 9 → plan eb rad med = ⟨9, med⟩) ∧
    (9 ≤ 9 + exp32 rad - exp64 eb + 1 → 9 + exp32 rad - exp64 eb + 1 ≤ 32 →
      ((plan eb rad med).reqLength : Int) = 9 + exp32 rad - exp64 eb + 1 ∧
      (plan eb rad med).effMedian = med) ∧
    (32 < 9 + exp32 rad - exp64 eb + 1 → plan eb rad med = ⟨32, 0x00000000⟩)

/-- O26. R146, R147: the derived widths of every length, and the identity rl + shift = 8 rb, which
the spec marks as derived (so basis derived). -/
def Obligations.WidthsOfEveryLength : Prop :=
  (∀ rl : Nat, rl + shiftBits rl = 8 * reqBytes rl ∧ shiftBits rl ≤ 7) ∧
  (∀ rl : Nat, 9 ≤ rl → rl ≤ 16 → reqBytes rl = 2 ∧ shiftBits rl = 16 - rl) ∧
  (∀ rl : Nat, 17 ≤ rl → rl ≤ 24 → reqBytes rl = 3 ∧ shiftBits rl = 24 - rl) ∧
  (∀ rl : Nat, 25 ≤ rl → rl ≤ 32 → reqBytes rl = 4 ∧ shiftBits rl = 32 - rl)

/-- O27. From R149, which the spec marks as derived: a plan that replaced the median saturated, so COMPRESS rejects
it; a COMPRESS that succeeds has a length in 9..24 and the configured median. -/
def Obligations.SaturatedPlanNeverEncodes : Prop :=
  ∀ s : State,
    ((plan s.errBound s.radius s.median).effMedian ≠ s.median →
      (plan s.errBound s.radius s.median).reqLength = 32 ∧
      (s.compressReady = true →
        exec .compress s =
          .next { s with responses := s.responses ++ [⟨.unsupportedPrecision, 0⟩] })) ∧
    (∀ t v, exec .compress s = .next t → t.responses = s.responses ++ [⟨.ok, v⟩] →
      9 ≤ (plan s.errBound s.radius s.median).reqLength ∧
      (plan s.errBound s.radius s.median).reqLength ≤ 24 ∧
      (plan s.errBound s.radius s.median).effMedian = s.median)

/-- O28. From R150, which the spec marks as derived: the planner's corner cases, row by row. -/
def Obligations.PlannerCornerCases : Prop :=
  ∀ (eb : Word64) (rad med : Word32),
    plan (eb ^^^ 0x8000000000000000) rad med = plan eb rad med ∧
    plan eb (rad ^^^ 0x80000000) med = plan eb rad med ∧
    (eb.extractLsb' 52 11 = 0 → plan eb rad med = ⟨32, 0⟩) ∧
    (eb.extractLsb' 52 11 = 2047 → plan eb rad med = ⟨9, med⟩) ∧
    (rad.extractLsb' 23 8 = 0 →
      plan eb rad med =
        if 32 < 10 - 127 - exp64 eb then ⟨32, 0⟩ else ⟨(max 9 (10 - 127 - exp64 eb)).toNat, med⟩) ∧
    (rad.extractLsb' 23 8 = 255 →
      (exp64 eb < 106 → plan eb rad med = ⟨32, 0⟩) ∧
      (106 ≤ exp64 eb → plan eb rad med = ⟨(max 9 (138 - exp64 eb)).toNat, med⟩)) ∧
    (10 + exp32 rad - exp64 eb = 32 → plan eb rad med = ⟨32, med⟩)

/-- O29. From R151, which the spec marks as derived: a smaller error bound never yields a smaller length for a fixed
radius, and a larger radius never yields one for a fixed error bound (magnitudes of patterns that are not NaN). -/
def Obligations.PrecisionIsMonotone : Prop :=
  (∀ (e₁ e₂ : Word64) (rad med : Word32), notNaN64 e₁ = true → notNaN64 e₂ = true →
    magnitude64 e₁ ≤ magnitude64 e₂ →
    (plan e₂ rad med).reqLength ≤ (plan e₁ rad med).reqLength) ∧
  (∀ (eb : Word64) (r₁ r₂ med : Word32), isNaN32 r₁ = false → isNaN32 r₂ = false →
    magnitude32 r₁ ≤ magnitude32 r₂ →
    (plan eb r₁ med).reqLength ≤ (plan eb r₂ med).reqLength)

/-! ## The encoder -/

/-- O30. R180: COMPRESS stores the CompressedBlock at DST, sets LEAD[0..BLKLEN-1], answers the size, and changes
nothing else; its three errors in their order. -/
def Obligations.CompressWritesBlock : Prop :=
  (∀ a b : Word64, decode ⟨0x00000004, a, b⟩ = .ok .compress) ∧
  (∀ s : State,
    (s.mem.wf = true → s.cfgV = true → s.radV = true → s.loadV = true → s.dstV = true →
      reqBytes (plan s.errBound s.radius s.median).reqLength ≠ 4 →
      rangeOK s.platform s.dst.toNat
        (encodeBlock s.block s.median s.errBound s.radius).out.length = true →
      ∃ t, exec .compress s = .next t ∧
        StoredOnly { s with lead := t.lead } t
          (encodeBlock s.block s.median s.errBound s.radius).out ∧
        t.responses = s.responses ++
          [⟨.ok, BitVec.ofNat 64 (encodeBlock s.block s.median s.errBound s.radius).out.length⟩] ∧
        (∀ i, i < s.blkLen →
          (encodeBlock s.block s.median s.errBound s.radius).counts[i]? = some (t.leadCount i)) ∧
        (∀ i, s.blkLen ≤ i → t.leadCount i = s.leadCount i)) ∧
    (s.cfgV = false ∨ s.radV = false ∨ s.loadV = false ∨ s.dstV = false →
      exec .compress s = .next { s with responses := s.responses ++ [⟨.notReady, 0⟩] }) ∧
    (s.cfgV = true → s.radV = true → s.loadV = true → s.dstV = true →
      reqBytes (plan s.errBound s.radius s.median).reqLength = 4 →
      exec .compress s =
        .next { s with responses := s.responses ++ [⟨.unsupportedPrecision, 0⟩] }) ∧
    (s.cfgV = true → s.radV = true → s.loadV = true → s.dstV = true →
      reqBytes (plan s.errBound s.radius s.median).reqLength ≠ 4 →
      rangeOK s.platform s.dst.toNat
        (encodeBlock s.block s.median s.errBound s.radius).out.length = false →
      exec .compress s = .next { s with responses := s.responses ++ [⟨.accessFault, 0⟩] }))

/-- O31. R174: the leading byte count of a delta, by its size as a number. -/
def Obligations.LeadingBytesByMagnitude : Prop :=
  ∀ d : Word32,
    (d.toNat < 2 ^ 8 → leadingBytes d = 3) ∧
    (2 ^ 8 ≤ d.toNat → d.toNat < 2 ^ 16 → leadingBytes d = 2) ∧
    (2 ^ 16 ≤ d.toNat → d.toNat < 2 ^ 24 → leadingBytes d = 1) ∧
    (2 ^ 24 ≤ d.toNat → leadingBytes d = 0)

/-- O32. From R175, whose set of bytes the spec marks as derived and whose order it takes from general knowledge
(decision D15; log 10): the byte-selection table, row by row, with byte k of t being bits 8k+7:8k. -/
def Obligations.StoredBytesFollowTable : Prop :=
  ∀ t : Word32,
    storedBytes 2 t 0 = [t.extractLsb' 16 8, t.extractLsb' 24 8] ∧
    storedBytes 2 t 1 = [t.extractLsb' 16 8] ∧
    storedBytes 2 t 2 = [] ∧
    storedBytes 2 t 3 = [] ∧
    storedBytes 3 t 0 = [t.extractLsb' 8 8, t.extractLsb' 16 8, t.extractLsb' 24 8] ∧
    storedBytes 3 t 1 = [t.extractLsb' 8 8, t.extractLsb' 16 8] ∧
    storedBytes 3 t 2 = [t.extractLsb' 8 8] ∧
    storedBytes 3 t 3 = []

/-- O33. From R171, R173, R174: each count is that of the element's transformed value against the one before it, the
first against 0; a transformed value's top bits are zero. -/
def Obligations.CountsFollowXorChain : Prop :=
  ∀ (xs : List Word32) (med : Word32) (eb : Word64) (rad : Word32),
    (encodeBlock xs med eb rad).counts.length = xs.length ∧
    (∀ i (hi : i < xs.length),
      (encodeBlock xs med eb rad).counts[i]? = some (leadingBytes
        ((fsub32 xs[i] (plan eb rad med).effMedian >>> shiftBits (plan eb rad med).reqLength) ^^^
          (if i = 0 then 0 else
            fsub32 (xs.getD (i - 1) 0) (plan eb rad med).effMedian >>>
              shiftBits (plan eb rad med).reqLength)))) ∧
    (∀ x : Word32, (transform (plan eb rad med).effMedian (shiftBits (plan eb rad med).reqLength) x).toNat
      < 2 ^ (32 - shiftBits (plan eb rad med).reqLength))

/-- O34. From R176, R177, R178, of which the spec marks the median field as derived: the four parts of the output and
its size. -/
def Obligations.OutputHasFourParts : Prop :=
  ∀ (xs : List Word32) (med : Word32) (eb : Word64) (rad : Word32),
    reqBytes (plan eb rad med).reqLength ≠ 4 →
    let p := plan eb rad med
    let e := encodeBlock xs med eb rad
    let ts := xs.map (transform p.effMedian (shiftBits p.reqLength))
    e.out[0]?.map BitVec.toNat = some p.reqLength ∧
    (∀ k, k < 4 → e.out[1 + k]? = some (p.effMedian.extractLsb' (8 * k) 8)) ∧
    (e.out.drop 5).take (ceilDiv xs.length 4) = pack2 (e.counts.map (BitVec.setWidth 8)) ∧
    e.out.drop (5 + ceilDiv xs.length 4) =
      (ts.zip e.counts).flatMap (fun tl => storedBytes (reqBytes p.reqLength) tl.1 tl.2) ∧
    e.out.length = 1 + 4 + ceilDiv xs.length 4 +
      (e.counts.map fun l => reqBytes p.reqLength - l.toNat).sum

/-- O35. From R183, which the spec marks as derived: bounds on the size of every COMPRESS that succeeds. -/
def Obligations.OutputSizeIsBounded : Prop :=
  ∀ (s : State) (out : List Byte), compressOutput s = .ok out →
    5 + ceilDiv s.blkLen 4 ≤ out.length ∧
    out.length ≤
      5 + ceilDiv s.blkLen 4 + reqBytes (plan s.errBound s.radius s.median).reqLength * s.blkLen ∧
    out.length ≤ 5 + ceilDiv s.blkLen 4 + 3 * s.blkLen

/-- O36. From R186, which the spec marks as derived: from the output and the element count alone, the kept bytes of
every transformed value are recovered. -/
def Obligations.EncodingIsInvertible : Prop :=
  ∀ (xs : List Word32) (med : Word32) (eb : Word64) (rad : Word32),
    reqBytes (plan eb rad med).reqLength ≠ 4 →
    decodeBlock (encodeBlock xs med eb rad).out xs.length =
      xs.map fun x =>
        transform (plan eb rad med).effMedian (shiftBits (plan eb rad med).reqLength) x &&&
          (0xFFFFFFFF <<< (32 - 8 * reqBytes (plan eb rad med).reqLength))

/-- O37. From R185, which the spec marks as derived: byte 0 of a delta never affects its count; with rb = 2, byte 1
decides between the counts 2 and 3 only, and both store nothing. -/
def Obligations.LowBytesOnlyReachCounts : Prop :=
  (∀ d : Word32, leadingBytes (d &&& 0xFFFFFF00) = leadingBytes d) ∧
  (∀ d d' t : Word32, d.extractLsb' 16 16 = d'.extractLsb' 16 16 →
    storedBytes 2 t (leadingBytes d) = storedBytes 2 t (leadingBytes d') ∧
    (leadingBytes d ≠ leadingBytes d' →
      2 ≤ (leadingBytes d).toNat ∧ 2 ≤ (leadingBytes d').toNat ∧
      storedBytes 2 t (leadingBytes d) = []))

/-- O38. From R172, which the spec takes from general knowledge (decision D12; log 10): for finite operands with a
non-zero difference, a finite result is a nearest representable value, ties to the even pattern; the result
overflows exactly from half a unit above the largest finite value on, to the infinity of the difference's sign.
Values are in units of 2^-149. -/
def Obligations.SubtractionRoundsToNearestEven : Prop :=
  ∀ x y : Word32, isFinite32 x = true → isFinite32 y = true → units32 x ≠ units32 y →
    (isFinite32 (fsub32 x y) = true →
      ∀ z : Word32, isFinite32 z = true →
        (units32 (fsub32 x y) - (units32 x - units32 y)).natAbs ≤
          (units32 z - (units32 x - units32 y)).natAbs ∧
        ((units32 (fsub32 x y) - (units32 x - units32 y)).natAbs =
            (units32 z - (units32 x - units32 y)).natAbs →
          units32 z ≠ units32 (fsub32 x y) → (fsub32 x y).toNat % 2 = 0)) ∧
    (isFinite32 (fsub32 x y) = false ↔
      (2 ^ 25 - 1) * 2 ^ 252 ≤ (units32 x - units32 y).natAbs) ∧
    (isFinite32 (fsub32 x y) = false →
      fsub32 x y = if units32 x < units32 y then 0xFF800000 else 0x7F800000)

/-- O39. From R172, which the spec takes from general knowledge (decision D13; log 10): subtraction with NaN, infinite
or equal operands. -/
def Obligations.SubtractionSpecialCases : Prop :=
  ∀ x y : Word32,
    (isNaN32 x = true ∨ isNaN32 y = true → fsub32 x y = 0x7FC00000) ∧
    (isInf32 x = true → isFinite32 y = true → fsub32 x y = x) ∧
    (isFinite32 x = true → y = 0x7F800000 → fsub32 x y = 0xFF800000) ∧
    (isFinite32 x = true → y = 0xFF800000 → fsub32 x y = 0x7F800000) ∧
    (isInf32 x = true → y = x → fsub32 x y = 0x7FC00000) ∧
    (isInf32 x = true → isInf32 y = true → y ≠ x → fsub32 x y = x) ∧
    (isFinite32 x = true → y = x → magnitude32 x ≠ 0 → fsub32 x y = 0x00000000) ∧
    fsub32 0x80000000 0x00000000 = 0x80000000 ∧
    fsub32 0x80000000 0x80000000 = 0x00000000 ∧
    fsub32 0x00000000 0x00000000 = 0x00000000 ∧
    fsub32 0x00000000 0x80000000 = 0x00000000

/-- O40. R182: an empty block is five bytes, and its plan may still be unsupported. -/
def Obligations.EmptyBlockIsFiveBytes : Prop :=
  ∀ s : State, s.mem.wf = true → s.blkLen = 0 → s.compressReady = true →
    (reqBytes (plan s.errBound s.radius s.median).reqLength ≠ 4 →
      rangeOK s.platform s.dst.toNat 5 = true →
      ∃ t, exec .compress s = .next t ∧
        StoredOnly s t
          [BitVec.ofNat 8 (plan s.errBound s.radius s.median).reqLength,
            s.median.extractLsb' 0 8, s.median.extractLsb' 8 8,
            s.median.extractLsb' 16 8, s.median.extractLsb' 24 8] ∧
        t.responses = s.responses ++ [⟨.ok, 5⟩]) ∧
    (reqBytes (plan s.errBound s.radius s.median).reqLength = 4 →
      exec .compress s =
        .next { s with responses := s.responses ++ [⟨.unsupportedPrecision, 0⟩] })

/-- O41. R184: after a COMPRESS that succeeds, UNPACK2 of the packed bytes at DST+5 gives the counts LEAD holds. -/
def Obligations.LeadMatchesPackedBytes : Prop :=
  ∀ (s t : State) (out : List Byte), s.mem.wf = true → compressOutput s = .ok out →
    exec .compress s = .next t →
    unpack2 (t.mem.readBytes (s.dst.toNat + 5) (ceilDiv s.blkLen 4)) s.blkLen =
      (List.range s.blkLen).map (fun i => (t.leadCount i).setWidth 8) ∧
    (∀ i, i < s.blkLen → s.encoded.counts[i]? = some (t.leadCount i))

/-- O42. From R180 and R187, sentences the spec marks as derived: a second COMPRESS right after one that succeeded
answers the same size and changes nothing else: the same bytes are written again. -/
def Obligations.CompressTwiceWritesSameBytes : Prop :=
  ∀ (s t : State) (out : List Byte), s.mem.wf = true → compressOutput s = .ok out →
    exec .compress s = .next t →
    exec .compress t =
      .next { t with responses := t.responses ++ [⟨.ok, BitVec.ofNat 64 out.length⟩] }

/-- O43. R61, R276: SAMPLES is a snapshot: a host store leaves it, and what COMPRESS answers and writes does not
depend on what memory holds. -/
def Obligations.SamplesAreSnapshot : Prop :=
  (∀ (s : State) (a : Word64) (b : Byte) (rest : List HostInput), s.inbox = .store a b :: rest →
    ∃ t, step s = .next t ∧ t.block = s.block ∧ t.blkLen = s.blkLen) ∧
  (∀ (s t : State) (m : Memory), s.mem.wf = true → m.wf = true → exec .compress s = .next t →
    ∃ u, exec .compress { s with mem := m } = .next u ∧
      u = { t with mem := u.mem } ∧
      ∀ j, j < (outputOf .compress s).length →
        u.mem.read (s.dst.toNat + j) = t.mem.read (s.dst.toNat + j))

/-! ## The bit-packer -/

/-- O44. R115: PACK1 stores the packed flags at DST, answers their number, and changes nothing else; every byte is
computed from memory as it was before; its errors in their order. -/
def Obligations.PackOneStoresPackedFlags : Prop :=
  (∀ a b : Word64, decode ⟨0x00000007, a, b⟩ = .ok (.pack1 a b.toNat)) ∧
  (∀ (src : Word64) (n : Nat) (s : State),
    (s.mem.wf = true → s.dstV = true → rangeOK s.platform src.toNat n = true →
      rangeOK s.platform s.dst.toNat (ceilDiv n 8) = true →
      (∀ i, i < n → (s.mem.read (src.toNat + i)).toNat ≤ 1) →
      ∃ t, exec (.pack1 src n) s = .next t ∧
        StoredOnly s t (pack1 (s.mem.readBytes src.toNat n)) ∧
        t.responses = s.responses ++ [⟨.ok, BitVec.ofNat 64 (ceilDiv n 8)⟩]) ∧
    (s.dstV = false →
      exec (.pack1 src n) s = .next { s with responses := s.responses ++ [⟨.notReady, 0⟩] }) ∧
    (s.dstV = true → (rangeOK s.platform src.toNat n = false ∨
        rangeOK s.platform s.dst.toNat (ceilDiv n 8) = false) →
      exec (.pack1 src n) s = .next { s with responses := s.responses ++ [⟨.accessFault, 0⟩] }) ∧
    (s.dstV = true → rangeOK s.platform src.toNat n = true →
      rangeOK s.platform s.dst.toNat (ceilDiv n 8) = true →
      (∃ i, i < n ∧ 1 < (s.mem.read (src.toNat + i)).toNat) →
      exec (.pack1 src n) s = .next { s with responses := s.responses ++ [⟨.badElement, 0⟩] }))

/-- O45. R116: PACK2, likewise, with two bits an element. -/
def Obligations.PackTwoStoresPackedValues : Prop :=
  (∀ a b : Word64, decode ⟨0x00000008, a, b⟩ = .ok (.pack2 a b.toNat)) ∧
  (∀ (src : Word64) (n : Nat) (s : State),
    (s.mem.wf = true → s.dstV = true → rangeOK s.platform src.toNat n = true →
      rangeOK s.platform s.dst.toNat (ceilDiv n 4) = true →
      (∀ i, i < n → (s.mem.read (src.toNat + i)).toNat ≤ 3) →
      ∃ t, exec (.pack2 src n) s = .next t ∧
        StoredOnly s t (pack2 (s.mem.readBytes src.toNat n)) ∧
        t.responses = s.responses ++ [⟨.ok, BitVec.ofNat 64 (ceilDiv n 4)⟩]) ∧
    (s.dstV = false →
      exec (.pack2 src n) s = .next { s with responses := s.responses ++ [⟨.notReady, 0⟩] }) ∧
    (s.dstV = true → (rangeOK s.platform src.toNat n = false ∨
        rangeOK s.platform s.dst.toNat (ceilDiv n 4) = false) →
      exec (.pack2 src n) s = .next { s with responses := s.responses ++ [⟨.accessFault, 0⟩] }) ∧
    (s.dstV = true → rangeOK s.platform src.toNat n = true →
      rangeOK s.platform s.dst.toNat (ceilDiv n 4) = true →
      (∃ i, i < n ∧ 3 < (s.mem.read (src.toNat + i)).toNat) →
      exec (.pack2 src n) s = .next { s with responses := s.responses ++ [⟨.badElement, 0⟩] }))

/-- O46. R117: UNPACK1 stores one byte per flag at DST, answers their number, and changes nothing else; its errors. -/
def Obligations.UnpackOneStoresFlags : Prop :=
  (∀ a b : Word64, decode ⟨0x00000009, a, b⟩ = .ok (.unpack1 a b.toNat)) ∧
  (∀ (src : Word64) (n : Nat) (s : State),
    (s.mem.wf = true → s.dstV = true → rangeOK s.platform src.toNat (ceilDiv n 8) = true →
      rangeOK s.platform s.dst.toNat n = true →
      ∃ t, exec (.unpack1 src n) s = .next t ∧
        StoredOnly s t (unpack1 (s.mem.readBytes src.toNat (ceilDiv n 8)) n) ∧
        t.responses = s.responses ++ [⟨.ok, BitVec.ofNat 64 n⟩]) ∧
    (s.dstV = false →
      exec (.unpack1 src n) s = .next { s with responses := s.responses ++ [⟨.notReady, 0⟩] }) ∧
    (s.dstV = true → (rangeOK s.platform src.toNat (ceilDiv n 8) = false ∨
        rangeOK s.platform s.dst.toNat n = false) →
      exec (.unpack1 src n) s = .next { s with responses := s.responses ++ [⟨.accessFault, 0⟩] }))

/-- O47. R118: UNPACK2, likewise, with two bits an element. -/
def Obligations.UnpackTwoStoresValues : Prop :=
  (∀ a b : Word64, decode ⟨0x0000000A, a, b⟩ = .ok (.unpack2 a b.toNat)) ∧
  (∀ (src : Word64) (n : Nat) (s : State),
    (s.mem.wf = true → s.dstV = true → rangeOK s.platform src.toNat (ceilDiv n 4) = true →
      rangeOK s.platform s.dst.toNat n = true →
      ∃ t, exec (.unpack2 src n) s = .next t ∧
        StoredOnly s t (unpack2 (s.mem.readBytes src.toNat (ceilDiv n 4)) n) ∧
        t.responses = s.responses ++ [⟨.ok, BitVec.ofNat 64 n⟩]) ∧
    (s.dstV = false →
      exec (.unpack2 src n) s = .next { s with responses := s.responses ++ [⟨.notReady, 0⟩] }) ∧
    (s.dstV = true → (rangeOK s.platform src.toNat (ceilDiv n 4) = false ∨
        rangeOK s.platform s.dst.toNat n = false) →
      exec (.unpack2 src n) s = .next { s with responses := s.responses ++ [⟨.accessFault, 0⟩] }))

/-- O48. R110: pack1 gives ceil(L/8) bytes; element 8j+k sits at bit 7-k of byte j, unused low bits are 0. -/
def Obligations.PackOneBitPositions : Prop :=
  ∀ e : List Byte, (∀ x ∈ e, x = 0 ∨ x = 1) →
    8 * (pack1 e).length < e.length + 8 ∧ e.length ≤ 8 * (pack1 e).length ∧
    ∀ j k, j < (pack1 e).length → k < 8 →
      ((pack1 e).getD j 0).getLsbD (7 - k) = decide (8 * j + k < e.length ∧ e.getD (8 * j + k) 0 = 1)

/-- O49. R111: pack2 gives ceil(L/4) bytes; element 4j+k occupies bits 7-2k:6-2k of byte j, unused fields are 0. -/
def Obligations.PackTwoFieldPositions : Prop :=
  ∀ e : List Byte, (∀ x ∈ e, x.toNat ≤ 3) →
    4 * (pack2 e).length < e.length + 4 ∧ e.length ≤ 4 * (pack2 e).length ∧
    ∀ j k, j < (pack2 e).length → k < 4 →
      (((pack2 e).getD j 0).extractLsb' (6 - 2 * k) 2).toNat =
        if 4 * j + k < e.length then (e.getD (4 * j + k) 0).toNat else 0

/-- O50. R112: unpack1 gives L flags, flag i from bit 7-(i mod 8) of byte i div 8, and reads no other bit. -/
def Obligations.UnpackOneReadsItsBits : Prop :=
  ∀ (p : List Byte) (n : Nat),
    (unpack1 p n).length = n ∧
    ∀ i, i < n → (unpack1 p n)[i]? =
      some (if (p.getD (i / 8) 0).getLsbD (7 - i % 8) then 1 else 0)

/-- O51. R113: unpack2 gives L values, value i from bits 7-2(i mod 4):6-2(i mod 4) of byte i div 4, and reads no other
bit. -/
def Obligations.UnpackTwoReadsItsFields : Prop :=
  ∀ (p : List Byte) (n : Nat),
    (unpack2 p n).length = n ∧
    ∀ i, i < n → (unpack2 p n)[i]? =
      some (((p.getD (i / 4) 0).extractLsb' (6 - 2 * (i % 4)) 2).setWidth 8)

/-- O52. From R114: unpacking what was packed gives the elements back, for every length; and, marked as derived,
packing what was unpacked gives the bytes back with the unused low bits of the last one cleared. -/
def Obligations.UnpackInvertsPack : Prop :=
  (∀ e : List Byte, (∀ x ∈ e, x.toNat ≤ 1) → unpack1 (pack1 e) e.length = e) ∧
  (∀ e : List Byte, (∀ x ∈ e, x.toNat ≤ 3) → unpack2 (pack2 e) e.length = e) ∧
  (∀ (p : List Byte) (n : Nat), p.length = ceilDiv n 8 →
    (pack1 (unpack1 p n)).length = p.length ∧
    ∀ j, j < p.length → (pack1 (unpack1 p n)).getD j 0 =
      p.getD j 0 &&& (0xFF <<< (8 * (j + 1) - n))) ∧
  (∀ (p : List Byte) (n : Nat), p.length = ceilDiv n 4 →
    (pack2 (unpack2 p n)).length = p.length ∧
    ∀ j, j < p.length → (pack2 (unpack2 p n)).getD j 0 =
      p.getD j 0 &&& (0xFF <<< (2 * (4 * (j + 1) - n))))

/-! ## The whole machine -/

/-- O53. R20, R29, R35: a command other than a register's one writer leaves it, and no command changes memory, the
parameters of the run or the host's list of inputs beyond what R35 gives it. -/
def Obligations.EachRegisterHasOneWriter : Prop :=
  ∀ (i : Instr) (s t : State), exec i s = .next t →
    (opOf i ≠ .configure → t.errBound = s.errBound ∧ t.median = s.median ∧ t.cfgV = s.cfgV) ∧
    (opOf i ≠ .setRadius → t.radius = s.radius ∧ t.radV = s.radV) ∧
    (opOf i ≠ .bulkLoad → t.samples = s.samples ∧ t.blkLen = s.blkLen ∧ t.loadV = s.loadV) ∧
    (opOf i ≠ .setDst → t.dst = s.dst ∧ t.dstV = s.dstV) ∧
    (opOf i ≠ .compress → t.lead = s.lead) ∧
    (opOf i ∈ [Op.configure, .setRadius, .bulkLoad, .setDst, .plan] → t.mem = s.mem) ∧
    (∀ x, x < s.dst.toNat ∨ s.dst.toNat + (outputOf i s).length ≤ x →
      t.mem.read x = s.mem.read x) ∧
    t.platform = s.platform ∧ t.inbox = s.inbox ∧ t.hostReads = s.hostReads ∧ t.draws = s.draws

/-- O54. R27: a valid bit is set by its own command only, and no input but reset clears one. -/
def Obligations.ValidBitsFallOnlyAtReset : Prop :=
  (∀ (s t : State) (input : HostInput) (rest : List HostInput), s.inbox = input :: rest →
    assertsReset input = false → step s = .next t →
    (s.cfgV = true → t.cfgV = true) ∧ (s.radV = true → t.radV = true) ∧
    (s.loadV = true → t.loadV = true) ∧ (s.dstV = true → t.dstV = true)) ∧
  (∀ (c : Command) (s t : State), execCommand c s = .next t →
    (t.cfgV = true ↔ s.cfgV = true ∨ ∃ eb med, decode c = .ok (.configure eb med)) ∧
    (t.radV = true ↔ s.radV = true ∨ ∃ r, decode c = .ok (.setRadius r)) ∧
    (t.dstV = true ↔ s.dstV = true ∨ ∃ d, decode c = .ok (.setDst d)) ∧
    (t.loadV = true ↔ s.loadV = true ∨ ∃ src n, decode c = .ok (.bulkLoad src n) ∧
      n ≤ s.platform.maxBlockLen ∧ rangeOK s.platform src.toNat (4 * n) = true))

/-- O55. R26, R27, R28, R36: no step's responses, memory or host reads depend on a register whose valid bit is 0, on a
sample at BLKLEN or above, or on LEAD. -/
def Obligations.UnspecifiedStateIsNeverSeen : Prop :=
  ∀ s t s' : State, s.SameToHost t → step s = .next s' →
    ∃ t', step t = .next t' ∧ s'.SameToHost t'

/-- O56. From R89: ENCODE_BLOCK is its five commands in order, and a list issued until an error goes on exactly when
the newest status is OK. The input `untilError`, its one command a step and the step that drops an empty list are the
model's form (log 4). -/
def Obligations.EncodeBlockStopsAtFirstError : Prop :=
  (∀ eb med rad src len dst : Word64,
    (encodeBlockCommands eb med rad src len dst).map decode =
      [.ok (.setDst dst), .ok (.configure eb (med.extractLsb' 0 32)),
        .ok (.setRadius (rad.extractLsb' 0 32)), .ok (.bulkLoad src len.toNat), .ok .compress]) ∧
  (∀ (s : State) (rest : List HostInput), s.inbox = .untilError [] :: rest →
    step s = .next { s with inbox := rest }) ∧
  (∀ (s : State) (c : Command) (cs : List Command) (rest : List HostInput),
    s.inbox = .untilError (c :: cs) :: rest →
    ∃ t r, execCommand c { s with inbox := rest } = .next t ∧ t.responses = s.responses ++ [r] ∧
      step s = .next (if r.status = .ok then { t with inbox := .untilError cs :: rest } else t))

/-- O57. R240: the codes of the statuses, and none above 6. -/
def Obligations.StatusCodesAreTabled : Prop :=
  Status.code .ok = 0x00 ∧ Status.code .illegalCommand = 0x01 ∧ Status.code .notReady = 0x02 ∧
  Status.code .lengthRange = 0x03 ∧ Status.code .accessFault = 0x04 ∧
  Status.code .unsupportedPrecision = 0x05 ∧ Status.code .badElement = 0x06 ∧
  ∀ st : Status, (Status.code st).toNat ≤ 0x06
end

