-- ==== Sys2Proof/Laws/Pack.lean ====
section
/-! SUPPORT. Small lemmas of the packing functions and of the checks the packing commands share. -/

namespace Sys2Proof.Machine

open Sys2Proof

@[simp] theorem length_pack1 (e : List Byte) : (pack1 e).length = ceilDiv e.length 8 := by
  simp [pack1]

@[simp] theorem length_pack2 (e : List Byte) : (pack2 e).length = ceilDiv e.length 4 := by
  simp [pack2]

@[simp] theorem length_unpack1 (p : List Byte) (n : Nat) : (unpack1 p n).length = n := by
  simp [unpack1]

@[simp] theorem length_unpack2 (p : List Byte) (n : Nat) : (unpack2 p n).length = n := by
  simp [unpack2]

@[simp] theorem getElem_pack1 (e : List Byte) (j : Nat) (hj : j < (pack1 e).length) :
    (pack1 e)[j] = pack1Byte e j := by
  simp [pack1]

@[simp] theorem getElem_pack2 (e : List Byte) (j : Nat) (hj : j < (pack2 e).length) :
    (pack2 e)[j] = pack2Byte e j := by
  simp [pack2]

@[simp] theorem getElem_unpack1 (p : List Byte) (n i : Nat) (hi : i < (unpack1 p n).length) :
    (unpack1 p n)[i] = unpack1Elem p i := by
  simp [unpack1]

@[simp] theorem getElem_unpack2 (p : List Byte) (n i : Nat) (hi : i < (unpack2 p n).length) :
    (unpack2 p n)[i] = unpack2Elem p i := by
  simp [unpack2]

/-- Element k of a group, or 0 where the array has ended. -/
def elemOr0 (e : List Byte) (i : Nat) : Byte := if i < e.length then e.getD i 0 else 0

/-- A packed byte of flags is the OR of its eight shifted elements. -/
theorem pack1Byte_eq (e : List Byte) (j : Nat) :
    pack1Byte e j =
      elemOr0 e (8 * j) <<< 7 ||| elemOr0 e (8 * j + 1) <<< 6 ||| elemOr0 e (8 * j + 2) <<< 5 |||
      elemOr0 e (8 * j + 3) <<< 4 ||| elemOr0 e (8 * j + 4) <<< 3 ||| elemOr0 e (8 * j + 5) <<< 2 |||
      elemOr0 e (8 * j + 6) <<< 1 ||| elemOr0 e (8 * j + 7) := by
  have step : ∀ (p : Byte) (i s : Nat),
      (if i < e.length then p ||| (e.getD i 0 <<< s) else p) = p ||| elemOr0 e i <<< s := by
    intro p i s
    unfold elemOr0
    split <;> simp
  simp only [pack1Byte, step, List.range, List.range.loop, List.foldl, Nat.add_zero]
  simp

/-- A packed byte of two-bit values is the OR of its four shifted elements. -/
theorem pack2Byte_eq (e : List Byte) (j : Nat) :
    pack2Byte e j =
      elemOr0 e (4 * j) <<< 6 ||| elemOr0 e (4 * j + 1) <<< 4 ||| elemOr0 e (4 * j + 2) <<< 2 |||
      elemOr0 e (4 * j + 3) := by
  have step : ∀ (p : Byte) (i s : Nat),
      (if i < e.length then p ||| (e.getD i 0 <<< s) else p) = p ||| elemOr0 e i <<< s := by
    intro p i s
    unfold elemOr0
    split <;> simp
  simp only [pack2Byte, step, List.range, List.range.loop, List.foldl, Nat.add_zero]
  simp

/-- When PACK1 or PACK2 completes, and with which bytes. -/
theorem packChecked_eq_ok {per : Nat} {top : Byte} {pack : List Byte → List Byte} {src : Word64}
    {n : Nat} {s : State} {out : List Byte} :
    packChecked per top pack src n s = .ok out ↔
      s.packReady = true ∧ rangeOK s.platform src.toNat n = true ∧
      rangeOK s.platform s.dst.toNat (ceilDiv n per) = true ∧
      (∀ k, k < n → s.mem.read (src.toNat + k) ≤ top) ∧
      out = pack (s.mem.readBytes src.toNat n) := by
  have hall : (s.mem.readBytes src.toNat n).all (fun x => decide (x ≤ top)) = true ↔
      ∀ k, k < n → s.mem.read (src.toNat + k) ≤ top := by
    simp [Memory.readBytes, List.all_eq_true]
  rw [← hall]
  clear hall
  simp only [packChecked]
  repeat' split
  all_goals simp_all only [Bool.not_eq_false, reduceCtorEq, false_and, and_false,
    Bool.false_eq_true, Except.ok.injEq, true_and]
  exact eq_comm

/-- When UNPACK1 or UNPACK2 completes, and with which bytes. -/
theorem unpackChecked_eq_ok {per : Nat} {unpack : List Byte → Nat → List Byte} {src : Word64}
    {n : Nat} {s : State} {out : List Byte} :
    unpackChecked per unpack src n s = .ok out ↔
      s.packReady = true ∧ rangeOK s.platform src.toNat (ceilDiv n per) = true ∧
      rangeOK s.platform s.dst.toNat n = true ∧
      out = unpack (s.mem.readBytes src.toNat (ceilDiv n per)) n := by
  simp only [unpackChecked]
  repeat' split
  all_goals simp_all only [Bool.not_eq_false, reduceCtorEq, false_and, and_false,
    Bool.false_eq_true, Except.ok.injEq, true_and]
  exact eq_comm

/-- The error of PACK1 or PACK2 is one of the three of 60_exceptions.md R241. -/
theorem packChecked_eq_error {per : Nat} {top : Byte} {pack : List Byte → List Byte} {src : Word64}
    {n : Nat} {s : State} {e : Status} (h : packChecked per top pack src n s = .error e) :
    e = .notReady ∨ e = .accessFault ∨ e = .badElement := by
  simp only [packChecked] at h
  repeat' split at h
  all_goals cases h
  all_goals simp

/-- The error of UNPACK1 or UNPACK2 is one of the two of R241. -/
theorem unpackChecked_eq_error {per : Nat} {unpack : List Byte → Nat → List Byte} {src : Word64}
    {n : Nat} {s : State} {e : Status} (h : unpackChecked per unpack src n s = .error e) :
    e = .notReady ∨ e = .accessFault := by
  unfold unpackChecked at h
  repeat' split at h
  all_goals cases h
  all_goals simp

end Sys2Proof.Machine
end

