-- ==== Sys2Proof/Laws/Encoder.lean ====
section
/-! SUPPORT. Small lemmas of the planner and of the encoder. -/

namespace Sys2Proof.Machine

open Sys2Proof

/-- The planner's constants and its two clamps, in one equation (42_precision_truncator.md R145). -/
theorem plan_eq (eb : Word64) (rad med : Word32) :
    plan eb rad med =
      if 32 < rawLength eb rad then { reqLength := 32, effMedian := 0 }
      else { reqLength := (max 9 (rawLength eb rad)).toNat, effMedian := med } := by
  have hceil : Config.planCeiling < max Config.planFloor (rawLength eb rad) ↔
      32 < rawLength eb rad := by
    simp only [Config.planCeiling, Config.planFloor]
    omega
  unfold plan
  by_cases h : 32 < rawLength eb rad
  · rw [if_pos (hceil.2 h), if_pos h]
    rfl
  · rw [if_neg (mt hceil.1 h), if_neg h]
    rfl

/-- reqLength lies in 9..32 (00_scope.md R8). -/
theorem reqLength_range (eb : Word64) (rad med : Word32) :
    9 ≤ (plan eb rad med).reqLength ∧ (plan eb rad med).reqLength ≤ 32 := by
  rw [plan_eq]
  split
  · exact ⟨by norm_num, le_refl _⟩
  · dsimp only; omega

@[simp] theorem length_xorDeltas (prev : Word32) (ts : List Word32) :
    (xorDeltas prev ts).length = ts.length := by
  induction ts generalizing prev with
  | nil => rfl
  | cons t ts ih => simp [xorDeltas, ih]

@[simp] theorem length_block (s : State) : s.block.length = s.blkLen := by simp [State.block]

@[simp] theorem getElem_block (s : State) (i : Nat) (hi : i < s.block.length) :
    s.block[i] = s.sample i := by simp [State.block]

@[simp] theorem length_encodePlanned_counts (p : PlanResult) (xs : List Word32) :
    (encodePlanned p xs).counts.length = xs.length := by simp [encodePlanned]

@[simp] theorem length_encoded_counts (s : State) : s.encoded.counts.length = s.blkLen := by
  simp [State.encoded, encodeBlock]

@[simp] theorem length_le32 (v : Word32) : (le32 v).length = 4 := rfl

/-- The number of bytes stored of one value (43_delta_xor_encoder.md R176). -/
theorem length_storedBytes (rb : Nat) (hrb : rb ≤ 4) (t : Word32) (l : BitVec 2) :
    (storedBytes rb t l).length = rb - l.toNat := by
  have hl := l.isLt
  simp only [storedBytes, List.length_map]
  generalize l.toNat = n at *
  interval_cases rb <;> interval_cases n <;> rfl

/-- When COMPRESS completes, and with which bytes. -/
theorem compressOutput_eq_ok {s : State} {out : List Byte} :
    compressOutput s = .ok out ↔
      s.compressReady = true ∧ reqBytes s.planned.reqLength ≠ 4 ∧
      rangeOK s.platform s.dst.toNat s.encoded.out.length = true ∧ out = s.encoded.out := by
  simp only [compressOutput]
  repeat' split
  all_goals simp_all only [Bool.not_eq_false, reduceCtorEq, false_and, and_false,
    Bool.false_eq_true, Except.ok.injEq, true_and, ne_eq, not_true_eq_false, not_false_eq_true]
  exact eq_comm

/-- The error of COMPRESS is one of the three of 60_exceptions.md R241. -/
theorem compressOutput_eq_error {s : State} {e : Status} (h : compressOutput s = .error e) :
    e = .notReady ∨ e = .unsupportedPrecision ∨ e = .accessFault := by
  unfold compressOutput at h
  repeat' split at h
  all_goals cases h
  all_goals simp

end Sys2Proof.Machine
end

