-- ==== Sys2Proof/Laws/Encoding.lean ====
section
/-! SUPPORT. Small lemmas of the decoder and the encoder. -/

namespace Sys2Proof

@[simp] theorem decodeOp_opCode (op : Op) : decodeOp (opCode op) = .ok op := by
  cases op <;> rfl

theorem decode_of_decodeOp {c : Command} {op : Op} (h : decodeOp c.word = .ok op) :
    decode c = .ok (assembleOperands op c.a c.b) := by
  simp only [decode, h]

/-- A triple whose word is an operation's code decodes to that operation over its operand words. -/
theorem decode_opCode (op : Op) (a b : Word64) :
    decode { word := opCode op, a := a, b := b } = .ok (assembleOperands op a b) :=
  decode_of_decodeOp (decodeOp_opCode op)

/-- What a decoded command is: the operation of its word over its operand words. -/
theorem decode_eq_ok {c : Command} {i : Instr} (h : decode c = .ok i) :
    ∃ op, decodeOp c.word = .ok op ∧ i = assembleOperands op c.a c.b := by
  unfold decode at h
  split at h
  · next op hop => exact ⟨op, hop, (Except.ok.inj h).symm⟩
  · cases h

@[simp] theorem opOf_assembleOperands (op : Op) (a b : Word64) :
    opOf (assembleOperands op a b) = op := by
  cases op <;> rfl

/-- The operation code field and the reserved field, as numbers (30_encoding.md R81). -/
theorem toNat_opField (w : Word32) : (opField w).toNat = w.toNat % 256 := by
  simp [opField, BitVec.extractLsb'_toNat]

theorem toNat_rsvField (w : Word32) : (rsvField w).toNat = w.toNat / 256 := by
  have := w.isLt
  simp [rsvField, BitVec.extractLsb'_toNat, Nat.shiftRight_eq_div_pow]
  omega

theorem lowHalf_setWidth (v : Word32) : lowHalf (v.setWidth 64) = v := by
  ext i hi
  simp only [lowHalf, BitVec.getElem_extractLsb', zero_add, BitVec.getLsbD_setWidth, hi,
    BitVec.getLsbD_eq_getElem, Bool.and_eq_right_iff_imp, decide_eq_true_eq]
  intro _
  omega

theorem toNat_ofNat_count {n : Nat} (h : countFits n = true) : (BitVec.ofNat 64 n).toNat = n := by
  simp only [countFits, decide_eq_true_eq] at h
  simp only [BitVec.toNat_ofNat]
  exact Nat.mod_eq_of_lt h

theorem countFits_toNat (b : Word64) : countFits b.toNat = true := by
  simpa [countFits] using b.isLt

end Sys2Proof
end

