-- ==== Sys2Proof/Laws/Memory.lean ====
section
/-! SUPPORT. The laws of host memory: what a read gives after a write, that every memory operation keeps the canonical
form, that the form is canonical, and what the range check says. -/

namespace Sys2Proof.Machine

open Sys2Proof

@[simp] theorem Memory.read_nil (a : Nat) : Memory.read [] a = Config.unwrittenByte := rfl

theorem Memory.wfFrom_cons (lo a : Nat) (b : Byte) (rest : Memory) :
    Memory.wfFrom lo ((a, b) :: rest) = true ↔
      lo ≤ a ∧ a < Config.memorySize ∧ b ≠ Config.unwrittenByte ∧
        Memory.wfFrom (a + 1) rest = true := by
  simp only [Memory.wfFrom, Bool.and_eq_true, decide_eq_true_eq, and_assoc]

theorem Memory.wfFrom_weaken {m : Memory} {lo lo' : Nat} (hlo : lo' ≤ lo)
    (h : Memory.wfFrom lo m = true) : Memory.wfFrom lo' m = true := by
  cases m with
  | nil => rfl
  | cons c rest =>
    obtain ⟨a, b⟩ := c
    rw [Memory.wfFrom_cons] at h ⊢
    exact ⟨le_trans hlo h.1, h.2⟩

/-- Below the first listed address every byte is unwritten. -/
theorem Memory.read_below {m : Memory} {lo x : Nat} (h : Memory.wfFrom lo m = true) (hx : x < lo) :
    m.read x = Config.unwrittenByte := by
  induction m generalizing lo with
  | nil => rfl
  | cons c rest ih =>
    obtain ⟨a, b⟩ := c
    obtain ⟨hlo, -, -, hrest⟩ := (Memory.wfFrom_cons ..).1 h
    rw [Memory.read, if_neg (by omega)]
    exact ih hrest (by omega)

/-- A write leaves every other address alone, canonical form or not. -/
theorem Memory.read_write_of_ne (m : Memory) {a x : Nat} (b : Byte) (hne : x ≠ a) :
    (m.write a b).read x = m.read x := by
  induction m with
  | nil => unfold Memory.write; split <;> simp [Memory.read, hne]
  | cons c rest ih =>
    obtain ⟨a', b'⟩ := c
    unfold Memory.write
    split
    · split <;> simp [Memory.read, hne]
    · split
      · next ha => subst ha; split <;> simp [Memory.read, hne]
      · simp only [Memory.read, ih]

/-- A read after a write to the same address gives the byte written. -/
theorem Memory.read_write_self {m : Memory} {lo : Nat} (h : Memory.wfFrom lo m = true)
    (a : Nat) (b : Byte) : (m.write a b).read a = b := by
  induction m generalizing lo with
  | nil => unfold Memory.write; split <;> simp_all [Memory.read]
  | cons c rest ih =>
    obtain ⟨a', b'⟩ := c
    obtain ⟨-, -, -, hrest⟩ := (Memory.wfFrom_cons ..).1 h
    unfold Memory.write
    split
    · next hlt =>
      split
      · next hb =>
        rw [Memory.read, if_neg (by omega), Memory.read_below hrest (by omega), hb]
      · simp [Memory.read]
    · split
      · next ha =>
        subst ha
        split
        · next hb => rw [Memory.read_below hrest (by omega), hb]
        · simp [Memory.read]
      · next hne => rw [Memory.read, if_neg hne]; exact ih hrest

theorem Memory.write_wfFrom {m : Memory} {lo a : Nat} (b : Byte) (h : Memory.wfFrom lo m = true)
    (hlo : lo ≤ a) (ha : a < Config.memorySize) : Memory.wfFrom lo (m.write a b) = true := by
  induction m generalizing lo with
  | nil =>
    unfold Memory.write
    split
    · rfl
    · next hb => exact (Memory.wfFrom_cons ..).2 ⟨hlo, ha, hb, rfl⟩
  | cons c rest ih =>
    obtain ⟨a', b'⟩ := c
    obtain ⟨hlo', ha', hb', hrest⟩ := (Memory.wfFrom_cons ..).1 h
    unfold Memory.write
    split
    · next hlt =>
      split
      · exact h
      · next hb =>
        exact (Memory.wfFrom_cons ..).2 ⟨hlo, ha, hb, (Memory.wfFrom_cons ..).2 ⟨hlt, ha', hb', hrest⟩⟩
    · split
      · next heq =>
        subst heq
        split
        · exact Memory.wfFrom_weaken (by omega) hrest
        · next hb => exact (Memory.wfFrom_cons ..).2 ⟨hlo, ha, hb, hrest⟩
      · exact (Memory.wfFrom_cons ..).2 ⟨hlo', ha', hb', ih hrest (by omega)⟩

/-- Writing a byte keeps the canonical form. -/
theorem Memory.write_wf {m : Memory} {a : Nat} (b : Byte) (h : m.wf = true)
    (ha : a < Config.memorySize) : (m.write a b).wf = true :=
  Memory.write_wfFrom b h (Nat.zero_le a) ha

/-- Writing bytes that fit below 2^64 keeps the canonical form. -/
theorem Memory.writeBytes_wf {m : Memory} {a : Nat} {bs : List Byte} (h : m.wf = true)
    (ha : a + bs.length ≤ Config.memorySize) : (m.writeBytes a bs).wf = true := by
  induction bs generalizing m a with
  | nil => exact h
  | cons b bs ih =>
    rw [List.length_cons] at ha
    exact ih (Memory.write_wf b h (by omega)) (by omega)

/-- Writing bytes leaves every address outside their range alone. -/
theorem Memory.read_writeBytes_outside (m : Memory) {a x : Nat} (bs : List Byte)
    (hx : x < a ∨ a + bs.length ≤ x) : (m.writeBytes a bs).read x = m.read x := by
  induction bs generalizing m a with
  | nil => rfl
  | cons b bs ih =>
    rw [List.length_cons] at hx
    rw [Memory.writeBytes, ih _ (by omega), Memory.read_write_of_ne _ _ (by omega)]

/-- Each byte written is read back. -/
theorem Memory.read_writeBytes_inside {m : Memory} {a : Nat} {bs : List Byte} (h : m.wf = true)
    (ha : a + bs.length ≤ Config.memorySize) {j : Nat} (hj : j < bs.length) :
    (m.writeBytes a bs).read (a + j) = bs[j] := by
  induction bs generalizing m a j with
  | nil => simp at hj
  | cons b bs ih =>
    rw [List.length_cons] at ha hj
    rw [Memory.writeBytes]
    cases j with
    | zero =>
      rw [Memory.read_writeBytes_outside _ _ (by omega)]
      exact Memory.read_write_self h a b
    | succ j =>
      have := ih (m := m.write a b) (Memory.write_wf b h (by omega)) (a := a + 1) (by omega)
        (j := j) (by omega)
      rw [show a + (j + 1) = a + 1 + j by omega, this, List.getElem_cons_succ]

theorem Memory.ext_wfFrom {m m' : Memory} {lo : Nat} (h : Memory.wfFrom lo m = true)
    (h' : Memory.wfFrom lo m' = true) (hread : ∀ x, m.read x = m'.read x) : m = m' := by
  induction m generalizing m' lo with
  | nil =>
    cases m' with
    | nil => rfl
    | cons c rest =>
      obtain ⟨a, b⟩ := c
      have := hread a
      simp only [Memory.read, if_true] at this
      exact absurd this.symm ((Memory.wfFrom_cons ..).1 h').2.2.1
  | cons c rest ih =>
    obtain ⟨a, b⟩ := c
    obtain ⟨hlo, -, hb, hrest⟩ := (Memory.wfFrom_cons ..).1 h
    cases m' with
    | nil =>
      have := hread a
      simp only [Memory.read, if_true] at this
      exact absurd this hb
    | cons c' rest' =>
      obtain ⟨a', b'⟩ := c'
      obtain ⟨hlo', -, hb', hrest'⟩ := (Memory.wfFrom_cons ..).1 h'
      have haa : a = a' := by
        rcases Nat.lt_trichotomy a a' with hlt | heq | hgt
        · have := hread a
          rw [Memory.read, if_pos rfl, Memory.read, if_neg (by omega),
            Memory.read_below hrest' (by omega)] at this
          exact absurd this hb
        · exact heq
        · have := hread a'
          rw [Memory.read, if_neg (by omega), Memory.read_below hrest (by omega), Memory.read,
            if_pos rfl] at this
          exact absurd this.symm hb'
      subst haa
      have hbb : b = b' := by simpa [Memory.read] using hread a
      subst hbb
      have hreads : ∀ x, Memory.read rest x = Memory.read rest' x := by
        intro x
        by_cases hx : x = a
        · subst hx
          rw [Memory.read_below hrest (by omega), Memory.read_below hrest' (by omega)]
        · simpa [Memory.read, hx] using hread x
      rw [ih hrest hrest' hreads]

/-- The form is canonical: memories in it that read the same everywhere are equal. -/
theorem Memory.ext_of_wf {m m' : Memory} (h : m.wf = true) (h' : m'.wf = true)
    (hread : ∀ x, m.read x = m'.read x) : m = m' :=
  Memory.ext_wfFrom h h' hread

@[simp] theorem Memory.length_readBytes (m : Memory) (a n : Nat) : (m.readBytes a n).length = n := by
  simp [Memory.readBytes]

@[simp] theorem Memory.getElem_readBytes (m : Memory) (a n j : Nat)
    (hj : j < (m.readBytes a n).length) : (m.readBytes a n)[j] = m.read (a + j) := by
  simp [Memory.readBytes]

@[simp] theorem Memory.length_readSamples (m : Memory) (a n : Nat) :
    (m.readSamples a n).length = n := by
  simp [Memory.readSamples]

@[simp] theorem Memory.getElem_readSamples (m : Memory) (a n i : Nat)
    (hi : i < (m.readSamples a n).length) :
    (m.readSamples a n)[i] = m.readSample (a + 4 * i) := by
  simp [Memory.readSamples]

/-- A sample's four bytes, the first the least significant (20_memory.md R51). -/
theorem Memory.toNat_readSample (m : Memory) (a : Nat) :
    (m.readSample a).toNat =
      (m.read a).toNat + 2 ^ 8 * (m.read (a + 1)).toNat + 2 ^ 16 * (m.read (a + 2)).toNat +
        2 ^ 24 * (m.read (a + 3)).toNat := by
  have h0 := (m.read a).isLt
  have h1 := (m.read (a + 1)).isLt
  have h2 := (m.read (a + 2)).isLt
  have h3 := (m.read (a + 3)).isLt
  simp only [Memory.readSample, Memory.readValue, BitVec.toNat_ofNat, Nat.add_assoc] at *
  norm_num at *
  omega

theorem accessible_iff (p : Platform) (x : Nat) :
    accessible p x = true ↔
      x < Config.memorySize ∧ ∀ r ∈ p.inaccessible, ¬ (r.base ≤ x ∧ x < r.base + r.size) := by
  simp only [accessible, regionHas, Bool.and_eq_true, decide_eq_true_eq, List.all_eq_true,
    Bool.not_eq_true', Bool.and_eq_false_iff, decide_eq_false_iff_not]
  exact and_congr_right fun _ => forall₂_congr fun r _ => by omega

theorem regionAvoids_iff (r : Region) (a n : Nat) (hn : n ≠ 0) :
    regionAvoids r a n = true ↔
      ∀ x, a ≤ x → x < a + n → ¬ (r.base ≤ x ∧ x < r.base + r.size) := by
  simp only [regionAvoids, Bool.or_eq_true, decide_eq_true_eq]
  constructor
  · intro h x hx hx'; omega
  · intro h
    by_contra hc
    have hlo := h (max a r.base)
    omega

/-- Overlaying keeps the later elements. -/
theorem getD_overlay {α : Type} (new old : List α) (d : α) (i : Nat) :
    (overlay new old).getD i d = if i < new.length then new.getD i d else old.getD i d := by
  unfold overlay
  split
  · next h => simp [List.getD_eq_getElem?_getD, List.getElem?_append_left h]
  · next h =>
    rw [List.getD_eq_getElem?_getD, List.getElem?_append_right (by omega), List.getElem?_drop,
      List.getD_eq_getElem?_getD, show new.length + (i - new.length) = i by omega]

theorem length_overlay {α : Type} (new old : List α) :
    (overlay new old).length = max new.length old.length := by
  simp [overlay]; omega

end Sys2Proof.Machine
end

