-- ==== Sys2Proof/Laws/State.lean ====
section
/-! SUPPORT. One lemma per field for each named update of the state, so that no proof unfolds an update. -/

namespace Sys2Proof.Machine

open Sys2Proof

/-! CONFIGURE's writes. -/

@[simp] theorem State.setConfig_errBound (s : State) (eb : Word64) (med : Word32) :
    (s.setConfig eb med).errBound = eb := rfl

@[simp] theorem State.setConfig_median (s : State) (eb : Word64) (med : Word32) :
    (s.setConfig eb med).median = med := rfl

@[simp] theorem State.setConfig_radius (s : State) (eb : Word64) (med : Word32) :
    (s.setConfig eb med).radius = s.radius := rfl

@[simp] theorem State.setConfig_dst (s : State) (eb : Word64) (med : Word32) :
    (s.setConfig eb med).dst = s.dst := rfl

@[simp] theorem State.setConfig_blkLen (s : State) (eb : Word64) (med : Word32) :
    (s.setConfig eb med).blkLen = s.blkLen := rfl

@[simp] theorem State.setConfig_samples (s : State) (eb : Word64) (med : Word32) :
    (s.setConfig eb med).samples = s.samples := rfl

@[simp] theorem State.setConfig_cfgV (s : State) (eb : Word64) (med : Word32) :
    (s.setConfig eb med).cfgV = true := rfl

@[simp] theorem State.setConfig_radV (s : State) (eb : Word64) (med : Word32) :
    (s.setConfig eb med).radV = s.radV := rfl

@[simp] theorem State.setConfig_loadV (s : State) (eb : Word64) (med : Word32) :
    (s.setConfig eb med).loadV = s.loadV := rfl

@[simp] theorem State.setConfig_dstV (s : State) (eb : Word64) (med : Word32) :
    (s.setConfig eb med).dstV = s.dstV := rfl

@[simp] theorem State.setConfig_lead (s : State) (eb : Word64) (med : Word32) :
    (s.setConfig eb med).lead = s.lead := rfl

@[simp] theorem State.setConfig_mem (s : State) (eb : Word64) (med : Word32) :
    (s.setConfig eb med).mem = s.mem := rfl

@[simp] theorem State.setConfig_platform (s : State) (eb : Word64) (med : Word32) :
    (s.setConfig eb med).platform = s.platform := rfl

@[simp] theorem State.setConfig_inbox (s : State) (eb : Word64) (med : Word32) :
    (s.setConfig eb med).inbox = s.inbox := rfl

@[simp] theorem State.setConfig_responses (s : State) (eb : Word64) (med : Word32) :
    (s.setConfig eb med).responses = s.responses := rfl

@[simp] theorem State.setConfig_hostReads (s : State) (eb : Word64) (med : Word32) :
    (s.setConfig eb med).hostReads = s.hostReads := rfl

@[simp] theorem State.setConfig_draws (s : State) (eb : Word64) (med : Word32) :
    (s.setConfig eb med).draws = s.draws := rfl

/-! SET_RADIUS's writes. -/

@[simp] theorem State.setRadius_errBound (s : State) (r : Word32) :
    (s.setRadius r).errBound = s.errBound := rfl

@[simp] theorem State.setRadius_median (s : State) (r : Word32) :
    (s.setRadius r).median = s.median := rfl

@[simp] theorem State.setRadius_radius (s : State) (r : Word32) :
    (s.setRadius r).radius = r := rfl

@[simp] theorem State.setRadius_dst (s : State) (r : Word32) :
    (s.setRadius r).dst = s.dst := rfl

@[simp] theorem State.setRadius_blkLen (s : State) (r : Word32) :
    (s.setRadius r).blkLen = s.blkLen := rfl

@[simp] theorem State.setRadius_samples (s : State) (r : Word32) :
    (s.setRadius r).samples = s.samples := rfl

@[simp] theorem State.setRadius_cfgV (s : State) (r : Word32) :
    (s.setRadius r).cfgV = s.cfgV := rfl

@[simp] theorem State.setRadius_radV (s : State) (r : Word32) :
    (s.setRadius r).radV = true := rfl

@[simp] theorem State.setRadius_loadV (s : State) (r : Word32) :
    (s.setRadius r).loadV = s.loadV := rfl

@[simp] theorem State.setRadius_dstV (s : State) (r : Word32) :
    (s.setRadius r).dstV = s.dstV := rfl

@[simp] theorem State.setRadius_lead (s : State) (r : Word32) :
    (s.setRadius r).lead = s.lead := rfl

@[simp] theorem State.setRadius_mem (s : State) (r : Word32) :
    (s.setRadius r).mem = s.mem := rfl

@[simp] theorem State.setRadius_platform (s : State) (r : Word32) :
    (s.setRadius r).platform = s.platform := rfl

@[simp] theorem State.setRadius_inbox (s : State) (r : Word32) :
    (s.setRadius r).inbox = s.inbox := rfl

@[simp] theorem State.setRadius_responses (s : State) (r : Word32) :
    (s.setRadius r).responses = s.responses := rfl

@[simp] theorem State.setRadius_hostReads (s : State) (r : Word32) :
    (s.setRadius r).hostReads = s.hostReads := rfl

@[simp] theorem State.setRadius_draws (s : State) (r : Word32) :
    (s.setRadius r).draws = s.draws := rfl

/-! SET_DST's writes. -/

@[simp] theorem State.setDst_errBound (s : State) (d : Word64) :
    (s.setDst d).errBound = s.errBound := rfl

@[simp] theorem State.setDst_median (s : State) (d : Word64) :
    (s.setDst d).median = s.median := rfl

@[simp] theorem State.setDst_radius (s : State) (d : Word64) :
    (s.setDst d).radius = s.radius := rfl

@[simp] theorem State.setDst_dst (s : State) (d : Word64) :
    (s.setDst d).dst = d := rfl

@[simp] theorem State.setDst_blkLen (s : State) (d : Word64) :
    (s.setDst d).blkLen = s.blkLen := rfl

@[simp] theorem State.setDst_samples (s : State) (d : Word64) :
    (s.setDst d).samples = s.samples := rfl

@[simp] theorem State.setDst_cfgV (s : State) (d : Word64) :
    (s.setDst d).cfgV = s.cfgV := rfl

@[simp] theorem State.setDst_radV (s : State) (d : Word64) :
    (s.setDst d).radV = s.radV := rfl

@[simp] theorem State.setDst_loadV (s : State) (d : Word64) :
    (s.setDst d).loadV = s.loadV := rfl

@[simp] theorem State.setDst_dstV (s : State) (d : Word64) :
    (s.setDst d).dstV = true := rfl

@[simp] theorem State.setDst_lead (s : State) (d : Word64) :
    (s.setDst d).lead = s.lead := rfl

@[simp] theorem State.setDst_mem (s : State) (d : Word64) :
    (s.setDst d).mem = s.mem := rfl

@[simp] theorem State.setDst_platform (s : State) (d : Word64) :
    (s.setDst d).platform = s.platform := rfl

@[simp] theorem State.setDst_inbox (s : State) (d : Word64) :
    (s.setDst d).inbox = s.inbox := rfl

@[simp] theorem State.setDst_responses (s : State) (d : Word64) :
    (s.setDst d).responses = s.responses := rfl

@[simp] theorem State.setDst_hostReads (s : State) (d : Word64) :
    (s.setDst d).hostReads = s.hostReads := rfl

@[simp] theorem State.setDst_draws (s : State) (d : Word64) :
    (s.setDst d).draws = s.draws := rfl

/-! BULK_LOAD's writes. -/

@[simp] theorem State.setBlock_errBound (s : State) (b : List Word32) :
    (s.setBlock b).errBound = s.errBound := rfl

@[simp] theorem State.setBlock_median (s : State) (b : List Word32) :
    (s.setBlock b).median = s.median := rfl

@[simp] theorem State.setBlock_radius (s : State) (b : List Word32) :
    (s.setBlock b).radius = s.radius := rfl

@[simp] theorem State.setBlock_dst (s : State) (b : List Word32) :
    (s.setBlock b).dst = s.dst := rfl

@[simp] theorem State.setBlock_blkLen (s : State) (b : List Word32) :
    (s.setBlock b).blkLen = b.length := rfl

@[simp] theorem State.setBlock_samples (s : State) (b : List Word32) :
    (s.setBlock b).samples = overlay b s.samples := rfl

@[simp] theorem State.setBlock_cfgV (s : State) (b : List Word32) :
    (s.setBlock b).cfgV = s.cfgV := rfl

@[simp] theorem State.setBlock_radV (s : State) (b : List Word32) :
    (s.setBlock b).radV = s.radV := rfl

@[simp] theorem State.setBlock_loadV (s : State) (b : List Word32) :
    (s.setBlock b).loadV = true := rfl

@[simp] theorem State.setBlock_dstV (s : State) (b : List Word32) :
    (s.setBlock b).dstV = s.dstV := rfl

@[simp] theorem State.setBlock_lead (s : State) (b : List Word32) :
    (s.setBlock b).lead = s.lead := rfl

@[simp] theorem State.setBlock_mem (s : State) (b : List Word32) :
    (s.setBlock b).mem = s.mem := rfl

@[simp] theorem State.setBlock_platform (s : State) (b : List Word32) :
    (s.setBlock b).platform = s.platform := rfl

@[simp] theorem State.setBlock_inbox (s : State) (b : List Word32) :
    (s.setBlock b).inbox = s.inbox := rfl

@[simp] theorem State.setBlock_responses (s : State) (b : List Word32) :
    (s.setBlock b).responses = s.responses := rfl

@[simp] theorem State.setBlock_hostReads (s : State) (b : List Word32) :
    (s.setBlock b).hostReads = s.hostReads := rfl

@[simp] theorem State.setBlock_draws (s : State) (b : List Word32) :
    (s.setBlock b).draws = s.draws := rfl

/-! COMPRESS's register write. -/

@[simp] theorem State.setLead_errBound (s : State) (l : List (BitVec 2)) :
    (s.setLead l).errBound = s.errBound := rfl

@[simp] theorem State.setLead_median (s : State) (l : List (BitVec 2)) :
    (s.setLead l).median = s.median := rfl

@[simp] theorem State.setLead_radius (s : State) (l : List (BitVec 2)) :
    (s.setLead l).radius = s.radius := rfl

@[simp] theorem State.setLead_dst (s : State) (l : List (BitVec 2)) :
    (s.setLead l).dst = s.dst := rfl

@[simp] theorem State.setLead_blkLen (s : State) (l : List (BitVec 2)) :
    (s.setLead l).blkLen = s.blkLen := rfl

@[simp] theorem State.setLead_samples (s : State) (l : List (BitVec 2)) :
    (s.setLead l).samples = s.samples := rfl

@[simp] theorem State.setLead_cfgV (s : State) (l : List (BitVec 2)) :
    (s.setLead l).cfgV = s.cfgV := rfl

@[simp] theorem State.setLead_radV (s : State) (l : List (BitVec 2)) :
    (s.setLead l).radV = s.radV := rfl

@[simp] theorem State.setLead_loadV (s : State) (l : List (BitVec 2)) :
    (s.setLead l).loadV = s.loadV := rfl

@[simp] theorem State.setLead_dstV (s : State) (l : List (BitVec 2)) :
    (s.setLead l).dstV = s.dstV := rfl

@[simp] theorem State.setLead_lead (s : State) (l : List (BitVec 2)) :
    (s.setLead l).lead = overlay l s.lead := rfl

@[simp] theorem State.setLead_mem (s : State) (l : List (BitVec 2)) :
    (s.setLead l).mem = s.mem := rfl

@[simp] theorem State.setLead_platform (s : State) (l : List (BitVec 2)) :
    (s.setLead l).platform = s.platform := rfl

@[simp] theorem State.setLead_inbox (s : State) (l : List (BitVec 2)) :
    (s.setLead l).inbox = s.inbox := rfl

@[simp] theorem State.setLead_responses (s : State) (l : List (BitVec 2)) :
    (s.setLead l).responses = s.responses := rfl

@[simp] theorem State.setLead_hostReads (s : State) (l : List (BitVec 2)) :
    (s.setLead l).hostReads = s.hostReads := rfl

@[simp] theorem State.setLead_draws (s : State) (l : List (BitVec 2)) :
    (s.setLead l).draws = s.draws := rfl

/-! The memory writes of a command. -/

@[simp] theorem State.storeAtDst_errBound (s : State) (out : List Byte) :
    (s.storeAtDst out).errBound = s.errBound := rfl

@[simp] theorem State.storeAtDst_median (s : State) (out : List Byte) :
    (s.storeAtDst out).median = s.median := rfl

@[simp] theorem State.storeAtDst_radius (s : State) (out : List Byte) :
    (s.storeAtDst out).radius = s.radius := rfl

@[simp] theorem State.storeAtDst_dst (s : State) (out : List Byte) :
    (s.storeAtDst out).dst = s.dst := rfl

@[simp] theorem State.storeAtDst_blkLen (s : State) (out : List Byte) :
    (s.storeAtDst out).blkLen = s.blkLen := rfl

@[simp] theorem State.storeAtDst_samples (s : State) (out : List Byte) :
    (s.storeAtDst out).samples = s.samples := rfl

@[simp] theorem State.storeAtDst_cfgV (s : State) (out : List Byte) :
    (s.storeAtDst out).cfgV = s.cfgV := rfl

@[simp] theorem State.storeAtDst_radV (s : State) (out : List Byte) :
    (s.storeAtDst out).radV = s.radV := rfl

@[simp] theorem State.storeAtDst_loadV (s : State) (out : List Byte) :
    (s.storeAtDst out).loadV = s.loadV := rfl

@[simp] theorem State.storeAtDst_dstV (s : State) (out : List Byte) :
    (s.storeAtDst out).dstV = s.dstV := rfl

@[simp] theorem State.storeAtDst_lead (s : State) (out : List Byte) :
    (s.storeAtDst out).lead = s.lead := rfl

@[simp] theorem State.storeAtDst_mem (s : State) (out : List Byte) :
    (s.storeAtDst out).mem = s.mem.writeBytes s.dst.toNat out := rfl

@[simp] theorem State.storeAtDst_platform (s : State) (out : List Byte) :
    (s.storeAtDst out).platform = s.platform := rfl

@[simp] theorem State.storeAtDst_inbox (s : State) (out : List Byte) :
    (s.storeAtDst out).inbox = s.inbox := rfl

@[simp] theorem State.storeAtDst_responses (s : State) (out : List Byte) :
    (s.storeAtDst out).responses = s.responses := rfl

@[simp] theorem State.storeAtDst_hostReads (s : State) (out : List Byte) :
    (s.storeAtDst out).hostReads = s.hostReads := rfl

@[simp] theorem State.storeAtDst_draws (s : State) (out : List Byte) :
    (s.storeAtDst out).draws = s.draws := rfl

/-! The response. -/

@[simp] theorem State.answer_errBound (s : State) (st : Status) (v : Word64) :
    (s.answer st v).errBound = s.errBound := rfl

@[simp] theorem State.answer_median (s : State) (st : Status) (v : Word64) :
    (s.answer st v).median = s.median := rfl

@[simp] theorem State.answer_radius (s : State) (st : Status) (v : Word64) :
    (s.answer st v).radius = s.radius := rfl

@[simp] theorem State.answer_dst (s : State) (st : Status) (v : Word64) :
    (s.answer st v).dst = s.dst := rfl

@[simp] theorem State.answer_blkLen (s : State) (st : Status) (v : Word64) :
    (s.answer st v).blkLen = s.blkLen := rfl

@[simp] theorem State.answer_samples (s : State) (st : Status) (v : Word64) :
    (s.answer st v).samples = s.samples := rfl

@[simp] theorem State.answer_cfgV (s : State) (st : Status) (v : Word64) :
    (s.answer st v).cfgV = s.cfgV := rfl

@[simp] theorem State.answer_radV (s : State) (st : Status) (v : Word64) :
    (s.answer st v).radV = s.radV := rfl

@[simp] theorem State.answer_loadV (s : State) (st : Status) (v : Word64) :
    (s.answer st v).loadV = s.loadV := rfl

@[simp] theorem State.answer_dstV (s : State) (st : Status) (v : Word64) :
    (s.answer st v).dstV = s.dstV := rfl

@[simp] theorem State.answer_lead (s : State) (st : Status) (v : Word64) :
    (s.answer st v).lead = s.lead := rfl

@[simp] theorem State.answer_mem (s : State) (st : Status) (v : Word64) :
    (s.answer st v).mem = s.mem := rfl

@[simp] theorem State.answer_platform (s : State) (st : Status) (v : Word64) :
    (s.answer st v).platform = s.platform := rfl

@[simp] theorem State.answer_inbox (s : State) (st : Status) (v : Word64) :
    (s.answer st v).inbox = s.inbox := rfl

@[simp] theorem State.answer_responses (s : State) (st : Status) (v : Word64) :
    (s.answer st v).responses = s.responses ++ [{ status := st, value := v }] := rfl

@[simp] theorem State.answer_hostReads (s : State) (st : Status) (v : Word64) :
    (s.answer st v).hostReads = s.hostReads := rfl

@[simp] theorem State.answer_draws (s : State) (st : Status) (v : Word64) :
    (s.answer st v).draws = s.draws := rfl

/-! An OK response. -/

@[simp] theorem State.respond_errBound (s : State) (v : Word64) :
    (s.respond v).errBound = s.errBound := rfl

@[simp] theorem State.respond_median (s : State) (v : Word64) :
    (s.respond v).median = s.median := rfl

@[simp] theorem State.respond_radius (s : State) (v : Word64) :
    (s.respond v).radius = s.radius := rfl

@[simp] theorem State.respond_dst (s : State) (v : Word64) :
    (s.respond v).dst = s.dst := rfl

@[simp] theorem State.respond_blkLen (s : State) (v : Word64) :
    (s.respond v).blkLen = s.blkLen := rfl

@[simp] theorem State.respond_samples (s : State) (v : Word64) :
    (s.respond v).samples = s.samples := rfl

@[simp] theorem State.respond_cfgV (s : State) (v : Word64) :
    (s.respond v).cfgV = s.cfgV := rfl

@[simp] theorem State.respond_radV (s : State) (v : Word64) :
    (s.respond v).radV = s.radV := rfl

@[simp] theorem State.respond_loadV (s : State) (v : Word64) :
    (s.respond v).loadV = s.loadV := rfl

@[simp] theorem State.respond_dstV (s : State) (v : Word64) :
    (s.respond v).dstV = s.dstV := rfl

@[simp] theorem State.respond_lead (s : State) (v : Word64) :
    (s.respond v).lead = s.lead := rfl

@[simp] theorem State.respond_mem (s : State) (v : Word64) :
    (s.respond v).mem = s.mem := rfl

@[simp] theorem State.respond_platform (s : State) (v : Word64) :
    (s.respond v).platform = s.platform := rfl

@[simp] theorem State.respond_inbox (s : State) (v : Word64) :
    (s.respond v).inbox = s.inbox := rfl

@[simp] theorem State.respond_responses (s : State) (v : Word64) :
    (s.respond v).responses = s.responses ++ [{ status := .ok, value := v }] := rfl

@[simp] theorem State.respond_hostReads (s : State) (v : Word64) :
    (s.respond v).hostReads = s.hostReads := rfl

@[simp] theorem State.respond_draws (s : State) (v : Word64) :
    (s.respond v).draws = s.draws := rfl

/-! An error response. -/

@[simp] theorem State.raise_errBound (s : State) (st : Status) :
    (s.raise st).errBound = s.errBound := rfl

@[simp] theorem State.raise_median (s : State) (st : Status) :
    (s.raise st).median = s.median := rfl

@[simp] theorem State.raise_radius (s : State) (st : Status) :
    (s.raise st).radius = s.radius := rfl

@[simp] theorem State.raise_dst (s : State) (st : Status) :
    (s.raise st).dst = s.dst := rfl

@[simp] theorem State.raise_blkLen (s : State) (st : Status) :
    (s.raise st).blkLen = s.blkLen := rfl

@[simp] theorem State.raise_samples (s : State) (st : Status) :
    (s.raise st).samples = s.samples := rfl

@[simp] theorem State.raise_cfgV (s : State) (st : Status) :
    (s.raise st).cfgV = s.cfgV := rfl

@[simp] theorem State.raise_radV (s : State) (st : Status) :
    (s.raise st).radV = s.radV := rfl

@[simp] theorem State.raise_loadV (s : State) (st : Status) :
    (s.raise st).loadV = s.loadV := rfl

@[simp] theorem State.raise_dstV (s : State) (st : Status) :
    (s.raise st).dstV = s.dstV := rfl

@[simp] theorem State.raise_lead (s : State) (st : Status) :
    (s.raise st).lead = s.lead := rfl

@[simp] theorem State.raise_mem (s : State) (st : Status) :
    (s.raise st).mem = s.mem := rfl

@[simp] theorem State.raise_platform (s : State) (st : Status) :
    (s.raise st).platform = s.platform := rfl

@[simp] theorem State.raise_inbox (s : State) (st : Status) :
    (s.raise st).inbox = s.inbox := rfl

@[simp] theorem State.raise_responses (s : State) (st : Status) :
    (s.raise st).responses = s.responses ++ [{ status := st, value := 0 }] := rfl

@[simp] theorem State.raise_hostReads (s : State) (st : Status) :
    (s.raise st).hostReads = s.hostReads := rfl

@[simp] theorem State.raise_draws (s : State) (st : Status) :
    (s.raise st).draws = s.draws := rfl

/-! The reset input. -/

@[simp] theorem State.afterReset_errBound (s : State) :
    (s.afterReset).errBound = Config.errBoundAtReset := rfl

@[simp] theorem State.afterReset_median (s : State) :
    (s.afterReset).median = Config.medianAtReset := rfl

@[simp] theorem State.afterReset_radius (s : State) :
    (s.afterReset).radius = Config.radiusAtReset := rfl

@[simp] theorem State.afterReset_dst (s : State) :
    (s.afterReset).dst = Config.dstAtReset := rfl

@[simp] theorem State.afterReset_blkLen (s : State) :
    (s.afterReset).blkLen = 0 := rfl

@[simp] theorem State.afterReset_samples (s : State) :
    (s.afterReset).samples = [] := rfl

@[simp] theorem State.afterReset_cfgV (s : State) :
    (s.afterReset).cfgV = false := rfl

@[simp] theorem State.afterReset_radV (s : State) :
    (s.afterReset).radV = false := rfl

@[simp] theorem State.afterReset_loadV (s : State) :
    (s.afterReset).loadV = false := rfl

@[simp] theorem State.afterReset_dstV (s : State) :
    (s.afterReset).dstV = false := rfl

@[simp] theorem State.afterReset_lead (s : State) :
    (s.afterReset).lead = [] := rfl

@[simp] theorem State.afterReset_mem (s : State) :
    (s.afterReset).mem = s.mem := rfl

@[simp] theorem State.afterReset_platform (s : State) :
    (s.afterReset).platform = s.platform := rfl

@[simp] theorem State.afterReset_inbox (s : State) :
    (s.afterReset).inbox = s.inbox := rfl

@[simp] theorem State.afterReset_responses (s : State) :
    (s.afterReset).responses = s.responses := rfl

@[simp] theorem State.afterReset_hostReads (s : State) :
    (s.afterReset).hostReads = s.hostReads := rfl

@[simp] theorem State.afterReset_draws (s : State) :
    (s.afterReset).draws = s.draws := rfl

end Sys2Proof.Machine
end

