-- ==== Sys2Proof/Laws/Exec.lean ====
section
/-! SUPPORT. What executing a command can do, said once: it answers a next state, an error leaves the state but for the
response, and its memory writes are its output at DST. -/

namespace Sys2Proof.Machine

open Sys2Proof

@[simp] theorem State.deliver_ok (s : State) (out : List Byte) :
    s.deliver (.ok out) = (s.storeAtDst out).respond (BitVec.ofNat 64 out.length) := rfl

@[simp] theorem State.deliver_error (s : State) (e : Status) :
    s.deliver (.error e) = s.raise e := rfl

@[simp] theorem bytesOf_ok (out : List Byte) : bytesOf (.ok out) = out := rfl

@[simp] theorem bytesOf_error (e : Status) : bytesOf (.error e) = [] := rfl

/-- A delivered result: the bytes stored and counted, or the error raised. -/
theorem State.deliver_cases (s : State) (r : Except Status (List Byte)) :
    (∃ out, r = .ok out ∧
      s.deliver r = (s.storeAtDst out).respond (BitVec.ofNat 64 out.length)) ∨
    (∃ e, r = .error e ∧ s.deliver r = s.raise e) := by
  cases r with
  | ok out => exact .inl ⟨out, rfl, rfl⟩
  | error e => exact .inr ⟨e, rfl, rfl⟩

/-- BULK_LOAD either takes its samples or raises one of its two errors (44_offload_protocol.md R212). -/
theorem loadedSamples_cases (src : Word64) (n : Nat) (s : State) :
    (n ≤ s.platform.maxBlockLen ∧ rangeOK s.platform src.toNat (4 * n) = true ∧
      loadedSamples src n s = .ok (s.mem.readSamples src.toNat n)) ∨
    (n ≤ s.platform.maxBlockLen ∧ rangeOK s.platform src.toNat (4 * n) = false ∧
      loadedSamples src n s = .error .accessFault) ∨
    (s.platform.maxBlockLen < n ∧ loadedSamples src n s = .error .lengthRange) := by
  unfold loadedSamples
  by_cases hn : n ≤ s.platform.maxBlockLen
  · cases hr : rangeOK s.platform src.toNat (4 * n) <;> simp [hn]
  · simp [hn, not_le.1 hn]

/-- What BULK_LOAD answers. -/
theorem execBulkLoad_cases (src : Word64) (n : Nat) (s : State) :
    (n ≤ s.platform.maxBlockLen ∧ rangeOK s.platform src.toNat (4 * n) = true ∧
      execBulkLoad src n s =
        .next ((s.setBlock (s.mem.readSamples src.toNat n)).respond (BitVec.ofNat 64 n))) ∨
    (n ≤ s.platform.maxBlockLen ∧ rangeOK s.platform src.toNat (4 * n) = false ∧
      execBulkLoad src n s = .next (s.raise .accessFault)) ∨
    (s.platform.maxBlockLen < n ∧ execBulkLoad src n s = .next (s.raise .lengthRange)) := by
  unfold execBulkLoad
  rcases loadedSamples_cases src n s with ⟨hn, hr, h⟩ | ⟨hn, hr, h⟩ | ⟨hn, h⟩
  · exact .inl ⟨hn, hr, by rw [h]⟩
  · exact .inr (.inl ⟨hn, hr, by rw [h]⟩)
  · exact .inr (.inr ⟨hn, by rw [h]⟩)

/-- What COMPRESS answers (43_delta_xor_encoder.md R180). -/
theorem execCompress_cases (s : State) :
    (compressOutput s = .ok s.encoded.out ∧
      execCompress s = .next (((s.storeAtDst s.encoded.out).respond
        (BitVec.ofNat 64 s.encoded.out.length)).setLead s.encoded.counts)) ∨
    (∃ e, compressOutput s = .error e ∧ execCompress s = .next (s.raise e)) := by
  unfold execCompress
  cases h : compressOutput s with
  | ok out =>
    obtain rfl := (compressOutput_eq_ok.1 h).2.2.2
    exact .inl ⟨rfl, rfl⟩
  | error e => exact .inr ⟨e, rfl, rfl⟩

/-- What PLAN answers (42_precision_truncator.md R148). -/
theorem execPlan_cases (s : State) :
    (s.planReady = true ∧ execPlan s = .next (s.respond (planValue s.planned))) ∨
    (s.planReady = false ∧ execPlan s = .next (s.raise .notReady)) := by
  unfold execPlan
  cases s.planReady <;> simp

/-- Every command answers a next state. -/
theorem exec_isNext (i : Instr) (s : State) : ∃ t, exec i s = .next t := by
  cases i <;> exact ⟨_, rfl⟩

/-- Every issued command answers a next state, legal or not. -/
theorem execCommand_isNext (c : Command) (s : State) : ∃ t, execCommand c s = .next t := by
  unfold execCommand
  split
  · exact exec_isNext _ s
  · exact ⟨_, rfl⟩

/-- A command's memory writes are its output, at DST. -/
theorem exec_mem {i : Instr} {s t : State} (h : exec i s = .next t) :
    t.mem = s.mem.writeBytes s.dst.toNat (outputOf i s) := by
  cases i with
  | configure eb med => cases h; rfl
  | setRadius r => cases h; rfl
  | setDst d => cases h; rfl
  | bulkLoad src n =>
    rcases execBulkLoad_cases src n s with ⟨-, -, h'⟩ | ⟨-, -, h'⟩ | ⟨-, h'⟩ <;>
      (obtain rfl := Host.Outcome.next.inj (h'.symm.trans h); rfl)
  | plan =>
    rcases execPlan_cases s with ⟨-, h'⟩ | ⟨-, h'⟩ <;>
      (obtain rfl := Host.Outcome.next.inj (h'.symm.trans h); rfl)
  | compress =>
    rcases execCompress_cases s with ⟨ho, h'⟩ | ⟨e, ho, h'⟩ <;>
      (obtain rfl := Host.Outcome.next.inj (h'.symm.trans h); simp [outputOf, ho, Memory.writeBytes])
  | pack1 src n =>
    rcases s.deliver_cases (pack1Output src n s) with ⟨out, ho, h'⟩ | ⟨e, ho, h'⟩ <;>
      (cases h; simp only [outputOf, ho]; rfl)
  | pack2 src n =>
    rcases s.deliver_cases (pack2Output src n s) with ⟨out, ho, h'⟩ | ⟨e, ho, h'⟩ <;>
      (cases h; simp only [outputOf, ho]; rfl)
  | unpack1 src n =>
    rcases s.deliver_cases (unpack1Output src n s) with ⟨out, ho, h'⟩ | ⟨e, ho, h'⟩ <;>
      (cases h; simp only [outputOf, ho]; rfl)
  | unpack2 src n =>
    rcases s.deliver_cases (unpack2Output src n s) with ⟨out, ho, h'⟩ | ⟨e, ho, h'⟩ <;>
      (cases h; simp only [outputOf, ho]; rfl)

/-- The range check in the words of 20_memory.md R53, for a start that is an address. -/
theorem fits_of_rangeOK {p : Platform} {a n : Nat} (ha : a < Config.memorySize)
    (h : rangeOK p a n = true) : a + n ≤ Config.memorySize := by
  simp only [rangeOK, Bool.or_eq_true, Bool.and_eq_true, decide_eq_true_eq] at h
  omega

theorem toNat_lt_memorySize (w : Word64) : w.toNat < Config.memorySize := w.isLt

theorem bytesOf_fits {a : Nat} {r : Except Status (List Byte)} (ha : a < Config.memorySize)
    (h : ∀ out, r = .ok out → a + out.length ≤ Config.memorySize) :
    a + (bytesOf r).length ≤ Config.memorySize := by
  cases r with
  | ok out => exact h out rfl
  | error e => simpa using ha.le

/-- A command's output fits below 2^64. -/
theorem outputOf_fits (i : Instr) (s : State) :
    s.dst.toNat + (outputOf i s).length ≤ Config.memorySize := by
  have hd := toNat_lt_memorySize s.dst
  cases i with
  | configure => simpa [outputOf] using hd.le
  | setRadius => simpa [outputOf] using hd.le
  | setDst => simpa [outputOf] using hd.le
  | bulkLoad => simpa [outputOf] using hd.le
  | plan => simpa [outputOf] using hd.le
  | compress =>
    refine bytesOf_fits hd fun out h => ?_
    obtain ⟨-, -, hr, rfl⟩ := compressOutput_eq_ok.1 h
    exact fits_of_rangeOK hd hr
  | pack1 src n =>
    refine bytesOf_fits hd fun out h => ?_
    obtain ⟨-, -, hr, -, rfl⟩ := packChecked_eq_ok.1 h
    simpa using fits_of_rangeOK hd hr
  | pack2 src n =>
    refine bytesOf_fits hd fun out h => ?_
    obtain ⟨-, -, hr, -, rfl⟩ := packChecked_eq_ok.1 h
    simpa using fits_of_rangeOK hd hr
  | unpack1 src n =>
    refine bytesOf_fits hd fun out h => ?_
    obtain ⟨-, -, hr, rfl⟩ := unpackChecked_eq_ok.1 h
    simpa using fits_of_rangeOK hd hr
  | unpack2 src n =>
    refine bytesOf_fits hd fun out h => ?_
    obtain ⟨-, -, hr, rfl⟩ := unpackChecked_eq_ok.1 h
    simpa using fits_of_rangeOK hd hr

/-- Executing a command keeps memory in canonical form. -/
theorem exec_mem_wf {i : Instr} {s t : State} (h : exec i s = .next t) (hwf : s.mem.wf = true) :
    t.mem.wf = true := by
  rw [exec_mem h]
  exact Memory.writeBytes_wf hwf (outputOf_fits i s)

end Sys2Proof.Machine
end

