-- ==== Sys2Proof/Laws/PerInstr.lean ====
section
/-! SUPPORT. A statement made per command: its encoded word is the legal word of its row (30_encoding.md R81, R82). -/

namespace Sys2Proof.Laws.EncodedWord

open Sys2Proof

/-- The encoded word decodes to the command's operation, and its reserved field is zero. -/
def Statement (i : Instr) : Prop :=
  decodeOp (encode i).word = .ok (opOf i) ∧ rsvField (encode i).word = 0

theorem of_op (i : Instr) : Statement i := by
  refine ⟨decodeOp_opCode (opOf i), ?_⟩
  show rsvField (opCode (opOf i)) = 0
  cases opOf i <;> rfl

theorem configure (eb : Word64) (med : Word32) : Statement (.configure eb med) := of_op _
theorem setRadius (r : Word32) : Statement (.setRadius r) := of_op _
theorem bulkLoad (src : Word64) (n : Nat) : Statement (.bulkLoad src n) := of_op _
theorem compress : Statement .compress := of_op _
theorem setDst (d : Word64) : Statement (.setDst d) := of_op _
theorem plan : Statement .plan := of_op _
theorem pack1 (src : Word64) (n : Nat) : Statement (.pack1 src n) := of_op _
theorem pack2 (src : Word64) (n : Nat) : Statement (.pack2 src n) := of_op _
theorem unpack1 (src : Word64) (n : Nat) : Statement (.unpack1 src n) := of_op _
theorem unpack2 (src : Word64) (n : Nat) : Statement (.unpack2 src n) := of_op _

end Sys2Proof.Laws.EncodedWord
end

