-- ==== Sys2Proof/Laws/Port.lean ====
section
/-! SUPPORT. What a step and the port's inputs do, said once, and the laws of the memories that reset and races leave. -/

namespace Sys2Proof.Machine

open Sys2Proof

theorem step_idle {s : State} (h : s.inbox = []) : step s = .next s := by simp only [step, h]

theorem step_input {s : State} {input : HostInput} {rest : List HostInput}
    (h : s.inbox = input :: rest) : step s = receive input { s with inbox := rest } := by
  simp only [step, h]

/-- A raced command, once the command itself has run on the memory it sees. -/
theorem execRaced_eq {c : Command} {accs : List HostAccess} {s t : State}
    (h : execCommand c { s with mem := racedView s.draws accs s.mem } = .next t) :
    execRaced c accs s = .next { t with
      mem := racedStore (s.draws + accs.length) accs (hostStored accs s.mem) s.dst.toNat
        (commandOutput c { s with mem := racedView s.draws accs s.mem })
      hostReads := s.hostReads ++ racedReads
        (s.draws + accs.length +
          (commandOutput c { s with mem := racedView s.draws accs s.mem }).length)
        accs s.mem s.dst.toNat (commandOutput c { s with mem := racedView s.draws accs s.mem })
      draws := s.draws + accs.length +
        (commandOutput c { s with mem := racedView s.draws accs s.mem }).length + accs.length } := by
  simp only [execRaced, h]

/-- A command list issued until an error, once its first command has run. -/
theorem execUntilError_cons {c : Command} {cs : List Command} {s t : State}
    (h : execCommand c s = .next t) :
    execUntilError (c :: cs) s =
      .next (if t.lastOk then { t with inbox := .untilError cs :: t.inbox } else t) := by
  simp only [execUntilError, h]

theorem lastOk_of_append {t : State} {rs : List Response} {r : Response}
    (h : t.responses = rs ++ [r]) : t.lastOk = decide (r.status = .ok) := by
  simp [State.lastOk, h]

/-- An issued command's memory writes are its output, at DST. -/
theorem execCommand_mem {c : Command} {s t : State} (h : execCommand c s = .next t) :
    t.mem = s.mem.writeBytes s.dst.toNat (commandOutput c s) := by
  unfold execCommand at h
  unfold commandOutput
  split at h
  · next i hi => simp only [exec_mem h]
  · next e hi =>
    cases h
    simp only [State.raise_mem, Memory.writeBytes]

theorem commandOutput_fits (c : Command) (s : State) :
    s.dst.toNat + (commandOutput c s).length ≤ Config.memorySize := by
  unfold commandOutput
  split
  · exact outputOf_fits _ s
  · simpa using (toNat_lt_memorySize s.dst).le

/-- Bytes written by draws keep the canonical form. -/
theorem writeDrawn_wf {k : Nat} {m : Memory} {a : Nat} {bs : List Byte} (h : m.wf = true)
    (ha : a + bs.length ≤ Config.memorySize) : (writeDrawn k m a bs).wf = true := by
  induction bs generalizing k m a with
  | nil => exact h
  | cons b bs ih =>
    rw [List.length_cons] at ha
    rw [writeDrawn]
    refine ih ?_ (by omega)
    split
    · exact Memory.write_wf b h (by omega)
    · exact h

theorem read_writeDrawn_outside {k : Nat} (m : Memory) {a x : Nat} (bs : List Byte)
    (hx : x < a ∨ a + bs.length ≤ x) : (writeDrawn k m a bs).read x = m.read x := by
  induction bs generalizing k m a with
  | nil => rfl
  | cons b bs ih =>
    rw [List.length_cons] at hx
    rw [writeDrawn, ih _ (by omega)]
    split
    · exact Memory.read_write_of_ne _ _ (by omega)
    · rfl

/-- Each byte of a write range under reset is the old or the new one. -/
theorem read_writeDrawn_inside {k : Nat} {m : Memory} {a : Nat} {bs : List Byte} (h : m.wf = true)
    (ha : a + bs.length ≤ Config.memorySize) {j : Nat} (hj : j < bs.length) :
    (writeDrawn k m a bs).read (a + j) = m.read (a + j) ∨
      (writeDrawn k m a bs).read (a + j) = bs[j] := by
  induction bs generalizing k m a j with
  | nil => simp at hj
  | cons b bs ih =>
    rw [List.length_cons] at ha hj
    rw [writeDrawn]
    cases j with
    | zero =>
      rw [read_writeDrawn_outside _ _ (by omega)]
      split
      · exact .inr (Memory.read_write_self h _ _)
      · exact .inl rfl
    | succ j =>
      have hw : (if Config.draw k then m.write a b else m).wf = true := by
        split
        · exact Memory.write_wf b h (by omega)
        · exact h
      have := ih (k := k + 1) hw (a := a + 1) (by omega) (j := j) (by omega)
      rw [show a + 1 + j = a + (j + 1) by omega] at this
      rw [List.getElem_cons_succ]
      refine this.imp_left fun h' => h'.trans ?_
      split
      · exact Memory.read_write_of_ne _ _ (by omega)
      · rfl

theorem racedView_wf {k : Nat} {accs : List HostAccess} {m : Memory} (h : m.wf = true) :
    (racedView k accs m).wf = true := by
  induction accs generalizing k m with
  | nil => exact h
  | cons acc accs ih =>
    cases acc with
    | store a b =>
      rw [racedView]
      refine ih ?_
      split
      · exact Memory.write_wf b h (toNat_lt_memorySize a)
      · exact h
    | load a => exact ih h

/-- A command's reads see each raced byte old or as the host wrote it. -/
theorem read_racedView {k : Nat} {accs : List HostAccess} {m : Memory} (h : m.wf = true) (x : Nat) :
    (racedView k accs m).read x = m.read x ∨
      ∃ a b, .store a b ∈ accs ∧ a.toNat = x ∧ (racedView k accs m).read x = b := by
  induction accs generalizing k m with
  | nil => exact .inl rfl
  | cons acc accs ih =>
    cases acc with
    | store a b =>
      rw [racedView]
      have hw : (if Config.draw k then m.write a.toNat b else m).wf = true := by
        split
        · exact Memory.write_wf b h (toNat_lt_memorySize a)
        · exact h
      rcases ih (k := k + 1) hw with h' | ⟨a', b', hm, ha, hb⟩
      · by_cases hx : x = a.toNat
        · rw [h']
          split
          · exact .inr ⟨a, b, by simp, hx.symm, by rw [hx]; exact Memory.read_write_self h _ _⟩
          · exact .inl rfl
        · rw [h']
          split
          · exact .inl (Memory.read_write_of_ne _ _ hx)
          · exact .inl rfl
      · exact .inr ⟨a', b', List.mem_cons_of_mem _ hm, ha, hb⟩
    | load a =>
      rw [racedView]
      rcases ih (k := k + 1) h with h' | ⟨a', b', hm, ha, hb⟩
      · exact .inl h'
      · exact .inr ⟨a', b', List.mem_cons_of_mem _ hm, ha, hb⟩

theorem hostStored_wf {accs : List HostAccess} {m : Memory} (h : m.wf = true) :
    (hostStored accs m).wf = true := by
  induction accs generalizing m with
  | nil => exact h
  | cons acc accs ih =>
    cases acc with
    | store a b => exact ih (Memory.write_wf b h (toNat_lt_memorySize a))
    | load a => exact ih h

theorem hostWrites_store (a : Word64) (b : Byte) (accs : List HostAccess) (x : Nat) :
    hostWrites (.store a b :: accs) x = (decide (a.toNat = x) || hostWrites accs x) := rfl

theorem hostWrites_load (a : Word64) (accs : List HostAccess) (x : Nat) :
    hostWrites (.load a :: accs) x = hostWrites accs x := rfl

/-- A byte the host does not write is as before. -/
theorem read_hostStored_untouched {accs : List HostAccess} {m : Memory} {x : Nat}
    (hx : hostWrites accs x = false) : (hostStored accs m).read x = m.read x := by
  induction accs generalizing m with
  | nil => rfl
  | cons acc accs ih =>
    cases acc with
    | store a b =>
      rw [hostWrites_store, Bool.or_eq_false_iff, decide_eq_false_iff_not] at hx
      rw [hostStored, ih hx.2]
      exact Memory.read_write_of_ne _ _ (Ne.symm hx.1)
    | load a => exact ih hx

/-- A byte the host writes holds one of the values it wrote there. -/
theorem read_hostStored_touched {accs : List HostAccess} {m : Memory} (h : m.wf = true) {x : Nat}
    (hx : hostWrites accs x = true) :
    ∃ a b, .store a b ∈ accs ∧ a.toNat = x ∧ (hostStored accs m).read x = b := by
  induction accs generalizing m with
  | nil => cases hx
  | cons acc accs ih =>
    cases acc with
    | store a b =>
      have hm := Memory.write_wf b h (toNat_lt_memorySize a)
      rw [hostStored]
      cases hlater : hostWrites accs x with
      | true =>
        obtain ⟨a', b', hmem, ha, hb⟩ := ih hm hlater
        exact ⟨a', b', List.mem_cons_of_mem _ hmem, ha, hb⟩
      | false =>
        rw [hostWrites_store, hlater, Bool.or_false, decide_eq_true_eq] at hx
        refine ⟨a, b, List.mem_cons_self, hx, ?_⟩
        rw [read_hostStored_untouched hlater, ← hx]
        exact Memory.read_write_self h _ _
    | load a =>
      obtain ⟨a', b', hmem, ha, hb⟩ := ih h hx
      exact ⟨a', b', List.mem_cons_of_mem _ hmem, ha, hb⟩

/-- A byte the host reads during a command is the old one, one it wrote there, or one the unit writes there; `m` is
memory as the host's accesses so far leave it, `m₀` as it was before them. -/
theorem racedReads_spec {k : Nat} {accs all : List HostAccess} {m₀ m : Memory} {base : Nat}
    {out : List Byte} (h : m.wf = true) (hall : ∀ acc ∈ accs, acc ∈ all)
    (hm : ∀ x, m.read x = m₀.read x ∨ ∃ a b, .store a b ∈ all ∧ a.toNat = x ∧ m.read x = b) :
    List.Forall₂
      (fun (a : Word64) (r : Byte) =>
        r = m₀.read a.toNat ∨ (∃ b, .store a b ∈ all ∧ r = b) ∨
        ∃ j, ∃ hj : j < out.length, a.toNat = base + j ∧ r = out[j])
      (accs.filterMap fun acc => match acc with
        | .load a => some a
        | .store _ _ => none)
      (racedReads k accs m base out) := by
  induction accs generalizing k m with
  | nil => exact .nil
  | cons acc accs ih =>
    have hrest := fun x hx => hall x (List.mem_cons_of_mem acc hx)
    cases acc with
    | store a b =>
      simp only [racedReads, List.filterMap_cons]
      refine ih (Memory.write_wf b h (toNat_lt_memorySize a)) hrest fun x => ?_
      by_cases hx : x = a.toNat
      · exact .inr ⟨a, b, hall _ List.mem_cons_self, hx.symm, by rw [hx, Memory.read_write_self h]⟩
      · rw [Memory.read_write_of_ne _ _ hx]
        exact hm x
    | load a =>
      simp only [racedReads, List.filterMap_cons]
      refine .cons ?_ (ih h hrest hm)
      split
      · next hc =>
        simp only [Bool.and_eq_true, decide_eq_true_eq] at hc
        refine .inr (.inr ⟨a.toNat - base, by omega, by omega, ?_⟩)
        rw [List.getD_eq_getElem _ _ (by omega)]
      · rcases hm a.toNat with h' | ⟨a', b, hmem, ha, hb⟩
        · exact .inl h'
        · obtain rfl : a' = a := BitVec.eq_of_toNat_eq ha
          exact .inr (.inl ⟨b, hmem, hb⟩)

theorem racedStore_wf {k : Nat} {accs : List HostAccess} {m : Memory} {a : Nat} {bs : List Byte}
    (h : m.wf = true) (ha : a + bs.length ≤ Config.memorySize) :
    (racedStore k accs m a bs).wf = true := by
  induction bs generalizing k m a with
  | nil => exact h
  | cons b bs ih =>
    rw [List.length_cons] at ha
    rw [racedStore]
    refine ih ?_ (by omega)
    split
    · exact h
    · exact Memory.write_wf b h (by omega)

theorem read_racedStore_outside {k : Nat} {accs : List HostAccess} (m : Memory) {a x : Nat}
    (bs : List Byte) (hx : x < a ∨ a + bs.length ≤ x) :
    (racedStore k accs m a bs).read x = m.read x := by
  induction bs generalizing k m a with
  | nil => rfl
  | cons b bs ih =>
    rw [List.length_cons] at hx
    rw [racedStore, ih _ (by omega)]
    split
    · rfl
    · exact Memory.read_write_of_ne _ _ (by omega)

/-- Each byte the unit writes ends as its own, or, where the host wrote it too, as the host's. -/
theorem read_racedStore_inside {k : Nat} {accs : List HostAccess} {m : Memory} {a : Nat}
    {bs : List Byte} (h : m.wf = true) (ha : a + bs.length ≤ Config.memorySize) {j : Nat}
    (hj : j < bs.length) :
    (racedStore k accs m a bs).read (a + j) = bs[j] ∨
      (hostWrites accs (a + j) = true ∧ (racedStore k accs m a bs).read (a + j) = m.read (a + j)) := by
  induction bs generalizing k m a j with
  | nil => simp at hj
  | cons b bs ih =>
    rw [List.length_cons] at ha hj
    rw [racedStore]
    cases j with
    | zero =>
      rw [read_racedStore_outside _ _ (by omega)]
      split
      · next hc =>
        rw [Bool.and_eq_true] at hc
        exact .inr ⟨hc.1, rfl⟩
      · exact .inl (Memory.read_write_self h _ _)
    | succ j =>
      have hw : (if hostWrites accs a && Config.draw k then m else m.write a b).wf = true := by
        split
        · exact h
        · exact Memory.write_wf b h (by omega)
      have := ih (k := k + 1) hw (a := a + 1) (by omega) (j := j) (by omega)
      rw [show a + 1 + j = a + (j + 1) by omega] at this
      rw [List.getElem_cons_succ]
      refine this.imp_right fun h' => ⟨h'.1, h'.2.trans ?_⟩
      split
      · rfl
      · exact Memory.read_write_of_ne _ _ (by omega)

end Sys2Proof.Machine
end

