-- ==== Sys2Proof/Tests/Slice0.lean ====
section
/-! SUPPORT. Tests: ill-formed terms the checks refuse, words written out from the spec's encodings, single steps with
results from 95_test_vectors.md (its ids stand in the comments), and for each statement a witness of its hypotheses. -/

namespace Sys2Proof.Tests

open Sys2Proof Sys2Proof.Machine

/-! ## States -/

/-- The state an outcome leaves, if it leaves one. -/
def nextState (o : Host.Outcome State Fault Refusal) : Option State :=
  match o with
  | .next t => some t
  | .fault _ => none
  | .refused _ => none

/-- The newest response of the state an outcome leaves. -/
def answerOf (o : Host.Outcome State Fault Refusal) : Option Response :=
  (nextState o).bind fun t => t.responses.getLast?

/-- The memory bytes an outcome leaves from an address on. -/
def bytesAt (o : Host.Outcome State Fault Refusal) (a n : Nat) : Option (List Byte) :=
  (nextState o).map fun t => t.mem.readBytes a n

/-- After reset, with room for 8 samples and one hole in memory. -/
def fresh : State :=
  { State.reset with platform := { maxBlockLen := 8, inaccessible := [⟨0xF000, 16⟩] } }

/-- DST set, and the bytes given stored from the address given. -/
def withBytes (dst : Word64) (src : Nat) (bytes : List Byte) : State :=
  { fresh with dst := dst, dstV := true, mem := Memory.writeBytes [] src bytes }

/-- The registers of T-E1 as CONFIGURE, SET_RADIUS, BULK_LOAD and SET_DST leave them. -/
def stateE1 : State :=
  { fresh with
    errBound := 0x3F847AE147AE147B, median := 0x40000000, radius := 0x3F800000, dst := 0x2000
    blkLen := 4, samples := [0x3F800000, 0x3FC00000, 0x40000000, 0x40400000]
    cfgV := true, radV := true, loadV := true, dstV := true
    mem := [(0x2000, 0x55), (0x2010, 0x66)] }

/-- T-E1 with the error bound of T-P8, whose plan has four bytes. -/
def stateWide : State := { stateE1 with errBound := 0x3F00000000000000 }

/-- T-E1 with a zero error bound, whose plan saturates (T-P10). -/
def stateSaturated : State := { stateE1 with errBound := 0 }

/-- The samples 1.0 and 1.5 in memory at 0x1000 (T-C6). -/
def stateC6 : State :=
  { fresh with mem := [(0x1002, 0x80), (0x1003, 0x3F), (0x1006, 0xC0), (0x1007, 0x3F)] }

/-- The command word COMPRESS. -/
def compressWord : Command := ⟨0x00000004, 0, 0⟩

/-- SET_DST 0x2000. -/
def setDstWord : Command := ⟨0x00000005, 0x2000, 0⟩

/-! ## Well-formedness: an ill-formed term for each check -/

theorem test_wf_refuses_bulkLoad_count : (Instr.bulkLoad 0x1000 (2 ^ 64)).wf = false := by decide
theorem test_wf_refuses_pack1_count : (Instr.pack1 0x1000 (2 ^ 64)).wf = false := by decide
theorem test_wf_refuses_pack2_count : (Instr.pack2 0x1000 (2 ^ 64)).wf = false := by decide
theorem test_wf_refuses_unpack1_count : (Instr.unpack1 0x1000 (2 ^ 64)).wf = false := by decide
theorem test_wf_refuses_unpack2_count : (Instr.unpack2 0x1000 (2 ^ 64)).wf = false := by decide

/-! ## Decoding: the words of 30_encoding.md R82, written out, with operands by R83 -/

-- T-C1 and T-C2: B[63:32] is ignored.
theorem test_decode_configure :
    decode ⟨0x00000001, 0x3F847AE147AE147B, 0xFFFFFFFF40000000⟩ =
      .ok (.configure 0x3F847AE147AE147B 0x40000000) := by decide
-- T-C4, with ignored bits set.
theorem test_decode_setRadius :
    decode ⟨0x00000002, 0x123456783F800000, 0xFFFFFFFFFFFFFFFF⟩ = .ok (.setRadius 0x3F800000) := by decide
-- T-X11: a count of 2^62 is the whole word.
theorem test_decode_bulkLoad :
    decode ⟨0x00000003, 0xFFFFFFFFFFFFFFFE, 0x4000000000000000⟩ =
      .ok (.bulkLoad 0xFFFFFFFFFFFFFFFE (2 ^ 62)) := by decide
theorem test_decode_compress : decode ⟨0x00000004, 7, 9⟩ = .ok .compress := by decide
-- T-C10.
theorem test_decode_setDst :
    decode ⟨0x00000005, 0xFFFFFFFFFFFFFFFF, 1⟩ = .ok (.setDst 0xFFFFFFFFFFFFFFFF) := by decide
theorem test_decode_plan : decode ⟨0x00000006, 1, 1⟩ = .ok .plan := by decide
-- T-B15 to T-B18.
theorem test_decode_pack1 : decode ⟨0x00000007, 0x1100, 10⟩ = .ok (.pack1 0x1100 10) := by decide
theorem test_decode_pack2 : decode ⟨0x00000008, 0x1100, 5⟩ = .ok (.pack2 0x1100 5) := by decide
theorem test_decode_unpack1 : decode ⟨0x00000009, 0x1200, 10⟩ = .ok (.unpack1 0x1200 10) := by decide
theorem test_decode_unpack2 : decode ⟨0x0000000A, 0x1200, 5⟩ = .ok (.unpack2 0x1200 5) := by decide
-- T-X1, T-X2, T-X3.
theorem test_decode_refuses_codes :
    decode ⟨0x00000000, 0, 0⟩ = .error .unassignedCode ∧
    decode ⟨0x0000000B, 0, 0⟩ = .error .unassignedCode ∧
    decode ⟨0x000000FF, 0, 0⟩ = .error .unassignedCode := by decide
-- T-X4, T-X5, P3 command 2.
theorem test_decode_refuses_reserved :
    decode ⟨0x00000104, 0, 0⟩ = .error .reservedBits ∧
    decode ⟨0x80000001, 1, 2⟩ = .error .reservedBits ∧
    decode ⟨0x00000100, 0, 0⟩ = .error .reservedBits := by decide

/-! ## Single steps -/

-- T-C2.
theorem test_configure :
    nextState (exec (.configure 0x3F847AE147AE147B 0x40000000) fresh) =
      some { fresh with
        errBound := 0x3F847AE147AE147B, median := 0x40000000, cfgV := true, responses := [⟨.ok, 0⟩] } := by
  decide
-- T-C4.
theorem test_setRadius :
    nextState (exec (.setRadius 0x3F800000) fresh) =
      some { fresh with radius := 0x3F800000, radV := true, responses := [⟨.ok, 0⟩] } := by decide
-- T-C10.
theorem test_setDst :
    nextState (exec (.setDst 0xFFFFFFFFFFFFFFFF) fresh) =
      some { fresh with dst := 0xFFFFFFFFFFFFFFFF, dstV := true, responses := [⟨.ok, 0⟩] } := by decide
-- T-C6.
theorem test_bulkLoad :
    nextState (exec (.bulkLoad 0x1000 2) stateC6) =
      some { stateC6 with
        samples := [0x3F800000, 0x3FC00000], blkLen := 2, loadV := true, responses := [⟨.ok, 2⟩] } := by
  decide
-- T-X10, T-X11, T-X12.
theorem test_bulkLoad_checks :
    answerOf (exec (.bulkLoad 0xFFFFFFFFFFFFFFFE 1) fresh) = some ⟨.accessFault, 0⟩ ∧
    answerOf (exec (.bulkLoad 0xFFFFFFFFFFFFFFFE (2 ^ 62)) fresh) = some ⟨.lengthRange, 0⟩ ∧
    answerOf (exec (.bulkLoad 0xFFFFFFFFFFFFFFFC 1) fresh) = some ⟨.ok, 1⟩ := by decide
-- T-P1, T-P10 (the saturated median is reported and MEDIAN is kept, T-P23).
theorem test_plan :
    answerOf (exec .plan stateE1) = some ⟨.ok, 0x4000000000070311⟩ ∧
    answerOf (exec .plan stateSaturated) = some ⟨.ok, 0x0000000000000420⟩ ∧
    (nextState (exec .plan stateSaturated)).map State.median = some 0x40000000 := by decide
-- T-P8, T-P9, T-P12, T-P20: the largest lengths, an infinite bound, NaN inputs.
theorem test_plan_corners :
    plan 0x3F00000000000000 0x3F800000 0x3F800000 = ⟨25, 0x3F800000⟩ ∧
    plan 0x3E90000000000000 0x3F800000 0x3F800000 = ⟨32, 0x3F800000⟩ ∧
    plan 0x7FF0000000000000 0x3F800000 0x3F800000 = ⟨9, 0x3F800000⟩ ∧
    plan 0x7FF8000000000000 0x7FC00000 0x3F800000 = ⟨9, 0x3F800000⟩ := by decide
-- T-E1: the size, the bytes, the bytes around them and LEAD.
theorem test_compress :
    answerOf (exec .compress stateE1) = some ⟨.ok, 0x10⟩ ∧
    bytesAt (exec .compress stateE1) 0x2000 17 =
      some [0x11, 0x00, 0x00, 0x00, 0x40, 0x11, 0x00, 0x7F, 0x01, 0x00, 0x7E, 0x00, 0x00, 0x00, 0x00, 0x7F,
        0x66] ∧
    (nextState (exec .compress stateE1)).map State.lead = some [0, 1, 0, 1] := by decide
-- T-X13, T-X14, T-X7.
theorem test_compress_errors :
    answerOf (exec .compress { stateE1 with dst := 0xFFFFFFFFFFFFFFF8 }) = some ⟨.accessFault, 0⟩ ∧
    answerOf (exec .compress { stateWide with dst := 0xFFFFFFFFFFFFFFF8 }) =
      some ⟨.unsupportedPrecision, 0⟩ ∧
    answerOf (exec .compress { stateE1 with dstV := false }) = some ⟨.notReady, 0⟩ := by decide
-- T-E7: NaN, infinity, zeros of both signs and a subnormal.
theorem test_encode_special_samples :
    (encodeBlock [0x7FC00001, 0x7F800000, 0x80000000, 0x00000000, 0x00000001] 0x00000000
      0x3FE0000000000000 0x3F800000).out =
      [0x0B, 0x00, 0x00, 0x00, 0x00, 0x10, 0xC0, 0xFE, 0x03, 0xFC, 0x00, 0x04, 0x00, 0x00] := by decide
-- T-E9: byte 1 decides between the counts 2 and 3.
theorem test_encode_low_byte_counts :
    (encodeBlock [0x3F800000, 0x3F800100, 0x3F800001, 0x3F800000] 0x00000000 0x3F90000000000000
      0x3F800000).out = [0x10, 0x00, 0x00, 0x00, 0x00, 0x2B, 0x80, 0x3F] := by decide
-- T-E10: three bytes kept, counts 0, 2 and 3.
theorem test_encode_three_bytes :
    (encodeBlock [0x3F800000, 0x3F808000, 0x3F808001] 0x00000000 0x3F10000000000000 0x3F800000).out =
      [0x18, 0x00, 0x00, 0x00, 0x00, 0x2C, 0x00, 0x80, 0x3F, 0x80] := by decide
-- T-E1 inversion.
theorem test_decodeBlock :
    decodeBlock [0x11, 0x00, 0x00, 0x00, 0x40, 0x11, 0x00, 0x7F, 0x01, 0x00, 0x7E, 0x00, 0x00, 0x00, 0x00, 0x7F] 4 =
      [0x017F0000, 0x017E0000, 0x00000000, 0x007F0000] := by decide
-- T-E6, T-E11, T-E12, T-E13: one unit in the last place, -0 - +0, inf - inf, a subnormal difference.
theorem test_fsub32 :
    fsub32 0x3F800001 0x3F800000 = 0x34000000 ∧ fsub32 0x80000000 0x00000000 = 0x80000000 ∧
    fsub32 0x7F800000 0x7F800000 = 0x7FC00000 ∧ fsub32 0x00800000 0x00000001 = 0x007FFFFF := by decide
-- T-B15, T-B22.
theorem test_pack1 :
    bytesAt (exec (.pack1 0x1100 10) (withBytes 0x3000 0x1100 [1, 0, 1, 1, 0, 0, 0, 1, 1, 0])) 0x3000 2 =
      some [0xB1, 0x80] ∧
    answerOf (exec (.pack1 0x1100 2) (withBytes 0x3000 0x1100 [1, 2])) = some ⟨.badElement, 0⟩ := by decide
-- T-B21: in place.
theorem test_pack1_in_place :
    bytesAt (exec (.pack1 0x1100 8) (withBytes 0x1100 0x1100 [1, 1, 1, 1, 1, 1, 1, 1])) 0x1100 8 =
      some [0xFF, 1, 1, 1, 1, 1, 1, 1] := by decide
-- T-B16, T-B23, T-B24.
theorem test_pack2 :
    bytesAt (exec (.pack2 0x1100 5) (withBytes 0x3000 0x1100 [0, 1, 2, 3, 3])) 0x3000 2 =
      some [0x1B, 0xC0] ∧
    answerOf (exec (.pack2 0x1100 2) (withBytes 0x3000 0x1100 [0, 4])) = some ⟨.badElement, 0⟩ ∧
    answerOf (exec (.pack2 0x1100 1) (withBytes 0x3000 0x1100 [0, 4])) = some ⟨.ok, 1⟩ := by decide
-- T-B17, T-B25.
theorem test_unpack1 :
    bytesAt (exec (.unpack1 0x1200 10) (withBytes 0x3000 0x1200 [0xB1, 0x80])) 0x3000 10 =
      some [1, 0, 1, 1, 0, 0, 0, 1, 1, 0] ∧
    answerOf (exec (.unpack1 0x1200 8) fresh) = some ⟨.notReady, 0⟩ := by decide
-- T-B18.
theorem test_unpack2 :
    bytesAt (exec (.unpack2 0x1200 5) (withBytes 0x3000 0x1200 [0x1B, 0xC0])) 0x3000 5 =
      some [0, 1, 2, 3, 3] := by decide
-- T-B26: a range that ends at 2^64 exactly.
theorem test_unpack2_top_of_memory :
    bytesAt (exec (.unpack2 0x1200 4) (withBytes 0xFFFFFFFFFFFFFFFC 0x1200 [0xFF])) 0xFFFFFFFFFFFFFFFC 4 =
      some [3, 3, 3, 3] := by decide
-- T-X5: nothing but the response changes.
theorem test_illegal_word :
    nextState (execCommand ⟨0x80000001, 7, 7⟩ stateE1) =
      some { stateE1 with responses := [⟨.illegalCommand, 0⟩] } := by decide
-- The first step after reset runs a command placed by withFetchWord (R80).
theorem test_step_runs_placed_command :
    step (State.reset.withFetchWord 32 0x00000004) = exec .compress State.reset := by rfl
-- R274: a command issued early has no step.
theorem test_early_command_stops :
    step { fresh with inbox := [.early compressWord compressWord] } = .fault .commandPortBusy := by rfl
-- R88: f32(0.75), f32(100.0), and no pattern for f32(0.1), which is not exactly representable.
theorem test_f32_literals :
    f32Pattern false 75 2 = some 0x3F400000 ∧ f32Pattern false 1000 1 = some 0x42C80000 ∧
    f32Pattern false 1 1 = none := by decide
-- R88: a line with an operand too many is none; P1 line 4.
theorem test_assembleLine :
    assembleLine ⟨.bulkLoad, [.literal 0x1000, .literal 4]⟩ = some ⟨0x00000003, 0x1000, 4⟩ ∧
    assembleLine ⟨.compress, [.literal 0]⟩ = none := by decide

-- R88, R89: P2's last lines with a comment, and T-E15's block as ENCODE_BLOCK.
theorem test_assembleProgram :
    assembleProgram ["SET_DST 0x3000".toList, "; bitmap".toList, "PACK1 0x1100, 2   ; state bitmap".toList] =
      some [.command ⟨0x00000005, 0x3000, 0⟩, .command ⟨0x00000007, 0x1100, 2⟩] ∧
    assembleProgram ["CONFIGURE 0x3F847AE147AE147B, f32(2.0)".toList] =
      some [.command ⟨0x00000001, 0x3F847AE147AE147B, 0x40000000⟩] ∧
    assembleProgram ["ENCODE_BLOCK 0x3F847AE147AE147B, f32(1.5), f32(0.5), 0x1010, 2, 0x2010".toList] =
      some [.untilError (encodeBlockCommands 0x3F847AE147AE147B 0x3FC00000 0x3F000000 0x1010 2 0x2010)] ∧
    assembleProgram ["COMPRESS 1".toList] = none ∧ assembleProgram ["NOP".toList] = none := by decide +kernel
-- The bit patterns of 95_test_vectors.md: f64(0.01), f64(0.1), f64(10.0).
theorem test_f64_literals :
    f64Pattern false 1 2 = 0x3F847AE147AE147B ∧ f64Pattern false 1 1 = 0x3FB999999999999A ∧
    f64Pattern false 100 1 = 0x4024000000000000 := by decide +kernel

/-! ## Witnesses: states and operands that meet the hypotheses of each statement -/

-- O1.
theorem witness_EncodedCommandsDecodeBack : (Instr.bulkLoad 0x1001 (2 ^ 64 - 1)).wf = true := by decide
-- O2.
theorem witness_DecodedCommandsAreWellFormed :
    decode ⟨0x0000000A, 3, 0xFFFFFFFFFFFFFFFF⟩ = .ok (.unpack2 3 (2 ^ 64 - 1)) := by decide
-- O3: both sides of the equivalence, at both ends of the codes.
theorem witness_LegalWordsAreTheTenCodes :
    (∃ i, decode ⟨0x00000001, 0, 0⟩ = .ok i) ∧ (∃ i, decode ⟨0x0000000A, 0, 0⟩ = .ok i) ∧
    (opField 0x0000000B).toNat = 11 ∧ rsvField 0x00000104 ≠ 0 :=
  ⟨⟨_, rfl⟩, ⟨_, rfl⟩, by decide, by decide⟩
-- O4.
theorem witness_IllegalWordChangesNothing :
    ¬ (rsvField 0x0000000B = 0 ∧ 1 ≤ (opField 0x0000000B).toNat ∧ (opField 0x0000000B).toNat ≤ 10) ∧
    ¬ (rsvField 0x00000000 = 0 ∧ 1 ≤ (opField 0x00000000).toNat ∧ (opField 0x00000000).toNat ≤ 10) ∧
    ¬ (rsvField 0x00000104 = 0 ∧ 1 ≤ (opField 0x00000104).toNat ∧ (opField 0x00000104).toNat ≤ 10) := by
  decide
-- O5.
theorem witness_OperandsAreTakenAsTabled : decode ⟨0x00000004, 5, 6⟩ = .ok .compress := by decide
-- O7: both clauses.
theorem witness_StepRunsIssuedCommand :
    { fresh with inbox := [.command setDstWord] }.inbox = .command setDstWord :: [] ∧
    decode setDstWord = .ok (.setDst 0x2000) ∧ (Instr.setDst 0x2000).wf = true ∧
    decodeTableWord 32 0x00000003 = some (.bulkLoad 0 0) := by decide
-- O8.
theorem witness_IdleUnitKeepsState : fresh.inbox = [] := by decide
-- O9: both clauses, with an illegal word in the second.
theorem witness_EveryCommandIsAnsweredOnce :
    { fresh with inbox := [.command compressWord] }.inbox = .command compressWord :: [] ∧
    { fresh with inbox := [.raced ⟨0, 0, 0⟩ [.load 3]] }.inbox = .raced ⟨0, 0, 0⟩ [.load 3] :: [] := by
  decide
-- O10: a command that ends with an error.
theorem witness_FailedCommandChangesNothing :
    execCommand compressWord fresh = .next { fresh with responses := [⟨.notReady, 0⟩] } := by rfl
-- O11: an input that runs, and one that does not.
theorem witness_OnlyAnEarlyCommandStops :
    (∃ t, step { fresh with inbox := [.command compressWord] } = .next t) ∧
    { fresh with inbox := [.early setDstWord compressWord] }.inbox =
      .early setDstWord compressWord :: [] :=
  ⟨⟨_, rfl⟩, rfl⟩
-- O12: a state of the form with a loaded block, and its step.
theorem witness_StepKeepsMachineForm :
    { stateE1 with inbox := [.command compressWord] }.Inv ∧
    ∃ t, step { stateE1 with inbox := [.command compressWord] } = .next t :=
  ⟨by decide, ⟨_, rfl⟩⟩
-- O14: both clauses, the store at the last address.
theorem witness_HostStoresAreReadBack :
    stateE1.mem.wf = true ∧
    { stateE1 with inbox := [.store 0xFFFFFFFFFFFFFFFF 9] }.inbox = .store 0xFFFFFFFFFFFFFFFF 9 :: [] ∧
    { stateE1 with inbox := [.load 0x2000] }.inbox = .load 0x2000 :: [] := by decide
-- O15: the edges of the range check and of the hole.
theorem witness_RangeCheckIsExact :
    rangeOK fresh.platform 0xFFFFFFFFFFFFFFFC 4 = true ∧ rangeOK fresh.platform 0xFFFFFFFFFFFFFFFC 5 = false ∧
    rangeOK fresh.platform 0xEFFF 1 = true ∧ rangeOK fresh.platform 0xEFFF 2 = false ∧
    rangeOK fresh.platform 0xF010 1 = true ∧ rangeOK fresh.platform 0xF000 0 = true := by decide
-- O16.
theorem witness_ResetClearsValidBits : { stateE1 with inbox := [.reset] }.inbox = .reset :: [] := by decide
-- O17: both clauses, with a command that would write, without and with a race.
theorem witness_ResetDuringCommandLeavesOldOrNew :
    stateE1.mem.wf = true ∧
    { stateE1 with inbox := [.resetDuring compressWord []] }.inbox = .resetDuring compressWord [] :: [] ∧
    { stateE1 with inbox := [.resetDuring compressWord [.store 0x2000 1, .load 0x2005]] }.inbox =
      .resetDuring compressWord [.store 0x2000 1, .load 0x2005] :: [] ∧
    { stateE1 with inbox := [.resetBefore compressWord] }.inbox = .resetBefore compressWord :: [] ∧
    (commandOutput compressWord stateE1).length = 16 := by decide
-- O18: the host writes a byte the unit writes and reads another.
theorem witness_RacedBytesAreOldOrNew :
    stateE1.mem.wf = true ∧
    { stateE1 with inbox := [.raced compressWord [.store 0x2001 7, .load 0x2005]] }.inbox =
      .raced compressWord [.store 0x2001 7, .load 0x2005] :: [] ∧
    hostWrites [.store 0x2001 7, .load 0x2005] 0x2001 = true ∧
    hostWrites [.store 0x2001 7, .load 0x2005] 0x2005 = false := by decide
-- O22: the three clauses at the edges of their ranges.
theorem witness_BulkLoadTakesSnapshot :
    8 ≤ fresh.platform.maxBlockLen ∧ rangeOK fresh.platform (0xFFFFFFFFFFFFFFE0 : Word64).toNat (4 * 8) = true ∧
    fresh.platform.maxBlockLen < 9 ∧
    rangeOK fresh.platform (0xFFFFFFFFFFFFFFE1 : Word64).toNat (4 * 8) = false := by decide
-- O23: both clauses.
theorem witness_PlanReportsWidthsAndMedian :
    stateE1.cfgV = true ∧ stateE1.radV = true ∧ { stateE1 with radV := false }.radV = false := by decide
-- O24: a zero and an infinite field of each width.
theorem witness_ExponentsOfEveryPattern :
    (0x80000001 : Word32).extractLsb' 23 8 = 0 ∧ (0x7FC00000 : Word32).extractLsb' 23 8 = 255 ∧
    (0x8000000000000001 : Word64).extractLsb' 52 11 = 0 ∧
    (0xFFF0000000000000 : Word64).extractLsb' 52 11 = 2047 := by decide
-- O25: the raw lengths 8, 9, 32 and 33, where the clauses meet.
theorem witness_PlanClampsLength :
    9 + exp32 0x3F800000 - exp64 0x4010000000000000 + 1 = 8 ∧
    9 + exp32 0x3F800000 - exp64 0x4000000000000000 + 1 = 9 ∧
    9 + exp32 0x3F800000 - exp64 0x3E90000000000000 + 1 = 32 ∧
    9 + exp32 0x3F800000 - exp64 0x3E80000000000000 + 1 = 33 := by decide
-- O26: the ends of the three ranges.
theorem witness_WidthsOfEveryLength :
    reqBytes 9 = 2 ∧ reqBytes 16 = 2 ∧ reqBytes 17 = 3 ∧ reqBytes 24 = 3 ∧ reqBytes 25 = 4 ∧ reqBytes 32 = 4 ∧
    shiftBits 9 = 7 ∧ shiftBits 16 = 0 := by decide
-- O27: a plan that replaced the median, and a COMPRESS that succeeds.
theorem witness_SaturatedPlanNeverEncodes :
    (plan stateSaturated.errBound stateSaturated.radius stateSaturated.median).effMedian ≠
      stateSaturated.median ∧
    stateSaturated.compressReady = true ∧
    (nextState (exec .compress stateE1)).map State.responses = some (stateE1.responses ++ [⟨.ok, 0x10⟩]) := by
  decide
-- O28: each row.
theorem witness_PlannerCornerCases :
    (0x8000000000000000 : Word64).extractLsb' 52 11 = 0 ∧ (0x7FF8000000000000 : Word64).extractLsb' 52 11 = 2047 ∧
    (0x00080000 : Word32).extractLsb' 23 8 = 0 ∧ (0x7F800000 : Word32).extractLsb' 23 8 = 255 ∧
    exp64 0x4680000000000000 = 105 ∧ exp64 0x4690000000000000 = 106 ∧
    10 + exp32 0x3F800000 - exp64 0x3E90000000000000 = 32 := by decide
-- O29: both clauses, the second from a subnormal radius to an infinite one.
theorem witness_PrecisionIsMonotone :
    notNaN64 0x0000000000000001 = true ∧ notNaN64 0x8000000000000002 = true ∧
    magnitude64 0x0000000000000001 ≤ magnitude64 0x8000000000000002 ∧
    isNaN32 0x00080000 = false ∧ isNaN32 0x7F800000 = false ∧
    magnitude32 0x00080000 ≤ magnitude32 0x7F800000 := by decide
-- O30: the four clauses.
theorem witness_CompressWritesBlock :
    (stateE1.mem.wf = true ∧ stateE1.compressReady = true ∧
      reqBytes (plan stateE1.errBound stateE1.radius stateE1.median).reqLength ≠ 4 ∧
      rangeOK stateE1.platform stateE1.dst.toNat
        (encodeBlock stateE1.block stateE1.median stateE1.errBound stateE1.radius).out.length = true) ∧
    { stateE1 with loadV := false }.loadV = false ∧
    reqBytes (plan stateWide.errBound stateWide.radius stateWide.median).reqLength = 4 ∧
    rangeOK stateE1.platform (0xFFFFFFFFFFFFFFF1 : Word64).toNat
      (encodeBlock stateE1.block stateE1.median stateE1.errBound stateE1.radius).out.length = false := by
  decide
-- O31: where the four clauses meet.
theorem witness_LeadingBytesByMagnitude :
    leadingBytes 0x000000FF = 3 ∧ leadingBytes 0x00000100 = 2 ∧ leadingBytes 0x0000FFFF = 2 ∧
    leadingBytes 0x00010000 = 1 ∧ leadingBytes 0x00FFFFFF = 1 ∧ leadingBytes 0x01000000 = 0 := by decide
-- O33: the first and a later element.
theorem witness_CountsFollowXorChain :
    0 < [(0x3F800000 : Word32), 0x3FC00000].length ∧ 1 < [(0x3F800000 : Word32), 0x3FC00000].length := by decide
-- O34 and O36.
theorem witness_OutputHasFourParts :
    reqBytes (plan 0x3F847AE147AE147B 0x3F800000 0x40000000).reqLength ≠ 4 := by decide
theorem witness_EncodingIsInvertible :
    reqBytes (plan 0x3F90000000000000 0x3F800000 0x00000000).reqLength ≠ 4 := by decide
-- O35.
theorem witness_OutputSizeIsBounded :
    compressOutput stateE1 = .ok
      [0x11, 0x00, 0x00, 0x00, 0x40, 0x11, 0x00, 0x7F, 0x01, 0x00, 0x7E, 0x00, 0x00, 0x00, 0x00, 0x7F] := by
  decide
-- O37: the deltas 0x0101 and 0x0001 of T-E9.
theorem witness_LowBytesOnlyReachCounts :
    (0x00000101 : Word32).extractLsb' 16 16 = (0x00000001 : Word32).extractLsb' 16 16 ∧
    leadingBytes 0x00000101 ≠ leadingBytes 0x00000001 := by decide
-- O38: a tie (1 + 2^-24), a largest finite result and an overflow.
theorem witness_SubtractionRoundsToNearestEven :
    isFinite32 0x3F800000 = true ∧ isFinite32 0xB3800000 = true ∧ units32 0x3F800000 ≠ units32 0xB3800000 ∧
    fsub32 0x3F800000 0xB3800000 = 0x3F800000 ∧
    isFinite32 (fsub32 0x7F7FFFFF 0xF2FFFFFF) = true ∧ isFinite32 (fsub32 0x7F7FFFFF 0xF3000000) = false := by
  decide
-- O39: each hypothesis.
theorem witness_SubtractionSpecialCases :
    isNaN32 0x7F800001 = true ∧ isInf32 0xFF800000 = true ∧ isFinite32 0x7F7FFFFF = true ∧
    isInf32 0x7F800000 = true ∧ (0x7F800000 : Word32) ≠ 0xFF800000 ∧ magnitude32 0x00000001 ≠ 0 := by decide
-- O40: both clauses.
theorem witness_EmptyBlockIsFiveBytes :
    { stateE1 with blkLen := 0 }.mem.wf = true ∧ { stateE1 with blkLen := 0 }.compressReady = true ∧
    reqBytes (plan stateE1.errBound stateE1.radius stateE1.median).reqLength ≠ 4 ∧
    rangeOK stateE1.platform stateE1.dst.toNat 5 = true ∧
    reqBytes (plan stateWide.errBound stateWide.radius stateWide.median).reqLength = 4 := by decide
-- O41 and O42: a COMPRESS that succeeds, and its next state.
theorem witness_LeadMatchesPackedBytes :
    stateE1.mem.wf = true ∧ (∃ out, compressOutput stateE1 = .ok out) ∧ ∃ t, exec .compress stateE1 = .next t :=
  ⟨by decide, ⟨_, witness_OutputSizeIsBounded⟩, ⟨_, rfl⟩⟩
theorem witness_CompressTwiceWritesSameBytes :
    stateE1.mem.wf = true ∧ (∃ out, compressOutput stateE1 = .ok out) ∧ ∃ t, exec .compress stateE1 = .next t :=
  witness_LeadMatchesPackedBytes
-- O43: both clauses.
theorem witness_SamplesAreSnapshot :
    { stateE1 with inbox := [.store 0x1000 1] }.inbox = .store 0x1000 1 :: [] ∧
    stateE1.mem.wf = true ∧ Memory.wf [(0x2001, 3)] = true ∧ ∃ t, exec .compress stateE1 = .next t :=
  ⟨by decide, by decide, by decide, ⟨_, rfl⟩⟩
-- O44 and O45: the clauses that succeed, are not ready, are out of range and hold a bad element.
theorem witness_PackOneStoresPackedFlags :
    (withBytes 0x3000 0x1100 [1, 0, 1]).mem.wf = true ∧ (withBytes 0x3000 0x1100 [1, 0, 1]).dstV = true ∧
    rangeOK fresh.platform (0x1100 : Word64).toNat 3 = true ∧
    rangeOK fresh.platform (0x3000 : Word64).toNat (ceilDiv 3 8) = true ∧
    (∀ i, i < 3 → ((withBytes 0x3000 0x1100 [1, 0, 1]).mem.read ((0x1100 : Word64).toNat + i)).toNat ≤ 1) ∧
    fresh.dstV = false ∧
    rangeOK fresh.platform (0xF00F : Word64).toNat (ceilDiv 3 8) = false ∧
    (∃ i, i < 2 ∧ 1 < ((withBytes 0x3000 0x1100 [1, 2]).mem.read ((0x1100 : Word64).toNat + i)).toNat) :=
  ⟨by decide, by decide, by decide, by decide, by decide, by decide, by decide, ⟨1, by decide⟩⟩
theorem witness_PackTwoStoresPackedValues :
    (withBytes 0x3000 0x1100 [0, 3, 2]).mem.wf = true ∧ (withBytes 0x3000 0x1100 [0, 3, 2]).dstV = true ∧
    rangeOK fresh.platform (0x1100 : Word64).toNat 3 = true ∧
    rangeOK fresh.platform (0x3000 : Word64).toNat (ceilDiv 3 4) = true ∧
    (∀ i, i < 3 → ((withBytes 0x3000 0x1100 [0, 3, 2]).mem.read ((0x1100 : Word64).toNat + i)).toNat ≤ 3) ∧
    fresh.dstV = false ∧
    rangeOK fresh.platform (0xEFFE : Word64).toNat 3 = false ∧
    (∃ i, i < 2 ∧ 3 < ((withBytes 0x3000 0x1100 [0, 4]).mem.read ((0x1100 : Word64).toNat + i)).toNat) :=
  ⟨by decide, by decide, by decide, by decide, by decide, by decide, by decide, ⟨1, by decide⟩⟩
-- O46 and O47: the clauses that succeed, are not ready and are out of range on either side.
theorem witness_UnpackOneStoresFlags :
    (withBytes 0x3000 0x1200 [0xB1]).mem.wf = true ∧ (withBytes 0x3000 0x1200 [0xB1]).dstV = true ∧
    rangeOK fresh.platform (0x1200 : Word64).toNat (ceilDiv 9 8) = true ∧
    rangeOK fresh.platform (0x3000 : Word64).toNat 9 = true ∧ fresh.dstV = false ∧
    rangeOK fresh.platform (0xFFFFFFFFFFFFFFFF : Word64).toNat (ceilDiv 9 8) = false ∧
    rangeOK fresh.platform (0xFFFFFFFFFFFFFFF8 : Word64).toNat 9 = false := by decide
theorem witness_UnpackTwoStoresValues :
    (withBytes 0x3000 0x1200 [0x1B]).mem.wf = true ∧ (withBytes 0x3000 0x1200 [0x1B]).dstV = true ∧
    rangeOK fresh.platform (0x1200 : Word64).toNat (ceilDiv 5 4) = true ∧
    rangeOK fresh.platform (0x3000 : Word64).toNat 5 = true ∧ fresh.dstV = false ∧
    rangeOK fresh.platform (0xFFFFFFFFFFFFFFFF : Word64).toNat (ceilDiv 5 4) = false ∧
    rangeOK fresh.platform (0xFFFFFFFFFFFFFFFC : Word64).toNat 5 = false := by decide
-- O48: T-B4, nine flags in two bytes.
theorem witness_PackOneBitPositions :
    (∀ x ∈ ([0, 0, 0, 0, 0, 0, 0, 0, 1] : List Byte), x = 0 ∨ x = 1) ∧
    pack1 [0, 0, 0, 0, 0, 0, 0, 0, 1] = [0x00, 0x80] := by decide
-- O49: T-B6.
theorem witness_PackTwoFieldPositions :
    (∀ x ∈ ([0, 1, 2, 3, 3] : List Byte), x.toNat ≤ 3) ∧ pack2 [0, 1, 2, 3, 3] = [0x1B, 0xC0] := by decide
-- O50: T-B13, the bit of element 9.
theorem witness_UnpackOneReadsItsBits :
    9 < 10 ∧ unpack1 [0xB1, 0xFF] 10 = [1, 0, 1, 1, 0, 0, 0, 1, 1, 1] := by decide
-- O51: T-B14.
theorem witness_UnpackTwoReadsItsFields : 4 < 5 ∧ unpack2 [0x1B, 0xC0] 5 = [0, 1, 2, 3, 3] := by decide
-- O52: elements in range, and packed bytes with unused low bits set.
theorem witness_UnpackInvertsPack :
    (∀ x ∈ ([1, 0, 1] : List Byte), x.toNat ≤ 1) ∧ (∀ x ∈ ([3, 0, 2] : List Byte), x.toNat ≤ 3) ∧
    [(0xB1 : Byte), 0xBF].length = ceilDiv 10 8 ∧ pack1 (unpack1 [0xB1, 0xBF] 10) = [0xB1, 0x80] ∧
    [(0x1B : Byte), 0xFF].length = ceilDiv 5 4 ∧ pack2 (unpack2 [0x1B, 0xFF] 5) = [0x1B, 0xC0] := by decide
-- O53: a command that stores, and one that does not.
theorem witness_EachRegisterHasOneWriter :
    (∃ t, exec .compress stateE1 = .next t) ∧ opOf .compress ≠ .configure ∧
    (∃ t, exec (.setDst 4) stateE1 = .next t) ∧ opOf (.setDst 4) ≠ .compress ∧
    opOf (.setDst 4) ∈ [Op.configure, .setRadius, .bulkLoad, .setDst, .plan] :=
  ⟨⟨_, rfl⟩, by decide, ⟨_, rfl⟩, by decide, by decide⟩
-- O54: an input that does not reset, and a command that sets a bit.
theorem witness_ValidBitsFallOnlyAtReset :
    assertsReset (.command setDstWord) = false ∧
    (∃ t, step { stateE1 with inbox := [.command setDstWord] } = .next t) ∧ stateE1.cfgV = true ∧
    ∃ t, execCommand setDstWord fresh = .next t :=
  ⟨by decide, ⟨_, rfl⟩, by decide, ⟨_, rfl⟩⟩
-- O55: two states that differ in registers without a valid bit, in samples past BLKLEN and in LEAD.
theorem witness_UnspecifiedStateIsNeverSeen :
    State.SameToHost { stateC6 with inbox := [.command compressWord] }
      { stateC6 with
        errBound := 5, median := 6, radius := 7, dst := 8, samples := [9], lead := [1]
        inbox := [.command compressWord] } ∧
    ∃ t, step { stateC6 with inbox := [.command compressWord] } = .next t :=
  ⟨by refine ⟨rfl, rfl, rfl, rfl, ?_, ?_, ?_, rfl, ?_, rfl, rfl, rfl, rfl, rfl, rfl⟩ <;>
      simp [stateC6, fresh, State.reset], ⟨_, rfl⟩⟩
-- O56: the two lists.
theorem witness_EncodeBlockStopsAtFirstError :
    { fresh with inbox := [.untilError []] }.inbox = .untilError [] :: [] ∧
    { fresh with inbox := [.untilError [compressWord, setDstWord]] }.inbox =
      .untilError [compressWord, setDstWord] :: [] := by decide

end Sys2Proof.Tests
end

section
/-! SUPPORT. The machine's form (`State.Inv`): what it asks of the arrays, how each named update of the state bears on
it, and that every command, input and step keeps it. -/

namespace Sys2Proof.Machine

open Sys2Proof

/-- The form of everything but memory: MAX_BLOCK_LEN in its range (00_scope.md R7), BLKLEN and the arrays within it
(10_state.md R20, R25), and no block without LOAD_V (R36). -/
def State.ArraysFit (s : State) : Prop :=
  1 ≤ s.platform.maxBlockLen ∧ s.platform.maxBlockLen < 2 ^ 62 ∧
  s.blkLen ≤ s.samples.length ∧ s.samples.length ≤ s.platform.maxBlockLen ∧
  s.lead.length ≤ s.platform.maxBlockLen ∧
  (s.loadV = false → s.blkLen = 0)

theorem State.inv_iff {s : State} : s.Inv ↔ s.mem.wf = true ∧ s.ArraysFit := Iff.rfl

/-- The loaded block holds at most MAX_BLOCK_LEN elements. -/
theorem State.ArraysFit.blkLen_le {s : State} (h : s.ArraysFit) :
    s.blkLen ≤ s.platform.maxBlockLen := by
  obtain ⟨-, -, hblk, hsamples, -, -⟩ := h
  exact hblk.trans hsamples

/-! The updates that write neither array, nor BLKLEN, nor LOAD_V. -/

@[simp] theorem State.arraysFit_setConfig {s : State} {eb : Word64} {med : Word32} :
    (s.setConfig eb med).ArraysFit ↔ s.ArraysFit := Iff.rfl

@[simp] theorem State.arraysFit_setRadius {s : State} {r : Word32} :
    (s.setRadius r).ArraysFit ↔ s.ArraysFit := Iff.rfl

@[simp] theorem State.arraysFit_setDst {s : State} {d : Word64} :
    (s.setDst d).ArraysFit ↔ s.ArraysFit := Iff.rfl

@[simp] theorem State.arraysFit_storeAtDst {s : State} {out : List Byte} :
    (s.storeAtDst out).ArraysFit ↔ s.ArraysFit := Iff.rfl

@[simp] theorem State.arraysFit_respond {s : State} {v : Word64} :
    (s.respond v).ArraysFit ↔ s.ArraysFit := Iff.rfl

@[simp] theorem State.arraysFit_raise {s : State} {st : Status} :
    (s.raise st).ArraysFit ↔ s.ArraysFit := Iff.rfl

@[simp] theorem State.arraysFit_deliver {s : State} {r : Except Status (List Byte)} :
    (s.deliver r).ArraysFit ↔ s.ArraysFit := by
  rcases s.deliver_cases r with ⟨out, -, h⟩ | ⟨e, -, h⟩ <;> simp [h]

/-! The updates that write them. -/

/-- BULK_LOAD's writes keep the form of the arrays when the block is within MAX_BLOCK_LEN. -/
theorem State.ArraysFit.setBlock {s : State} {block : List Word32} (h : s.ArraysFit)
    (hblock : block.length ≤ s.platform.maxBlockLen) : (s.setBlock block).ArraysFit := by
  obtain ⟨hpos, hlt, -, hsamples, hlead, -⟩ := h
  simp only [State.ArraysFit, State.setBlock_platform, State.setBlock_blkLen,
    State.setBlock_samples, State.setBlock_lead, State.setBlock_loadV, length_overlay]
  exact ⟨hpos, hlt, le_max_left _ _, max_le hblock hsamples, hlead, nofun⟩

/-- COMPRESS's register write keeps the form of the arrays when the counts are within MAX_BLOCK_LEN. -/
theorem State.ArraysFit.setLead {s : State} {counts : List (BitVec 2)} (h : s.ArraysFit)
    (hcounts : counts.length ≤ s.platform.maxBlockLen) : (s.setLead counts).ArraysFit := by
  obtain ⟨hpos, hlt, hblk, hsamples, hlead, hload⟩ := h
  simp only [State.ArraysFit, State.setLead_platform, State.setLead_blkLen,
    State.setLead_samples, State.setLead_lead, State.setLead_loadV, length_overlay]
  exact ⟨hpos, hlt, hblk, hsamples, max_le hcounts hlead, hload⟩

/-- Empty arrays fit whatever MAX_BLOCK_LEN is, so the reset input leaves the form. -/
theorem State.ArraysFit.afterReset {s : State} (h : s.ArraysFit) : s.afterReset.ArraysFit := by
  obtain ⟨hpos, hlt, -⟩ := h
  exact ⟨hpos, hlt, Nat.zero_le _, Nat.zero_le _, Nat.zero_le _, fun _ => rfl⟩

/-! Commands. -/

/-- BULK_LOAD takes a block only if its length is within MAX_BLOCK_LEN (44_offload_protocol.md R212). -/
theorem execBulkLoad_keeps_arraysFit {src : Word64} {n : Nat} {s t : State}
    (h : execBulkLoad src n s = .next t) (hs : s.ArraysFit) : t.ArraysFit := by
  rcases execBulkLoad_cases src n s with ⟨hn, -, h'⟩ | ⟨-, -, h'⟩ | ⟨-, h'⟩ <;>
    obtain rfl := Host.Outcome.next.inj (h'.symm.trans h)
  · exact State.arraysFit_respond.2 (hs.setBlock (by simpa using hn))
  · exact State.arraysFit_raise.2 hs
  · exact State.arraysFit_raise.2 hs

/-- COMPRESS writes one count for each element of the block (43_delta_xor_encoder.md R180). -/
theorem execCompress_keeps_arraysFit {s t : State}
    (h : execCompress s = .next t) (hs : s.ArraysFit) : t.ArraysFit := by
  rcases execCompress_cases s with ⟨-, h'⟩ | ⟨e, -, h'⟩ <;>
    obtain rfl := Host.Outcome.next.inj (h'.symm.trans h)
  · exact State.ArraysFit.setLead (by simpa using hs) (by simpa using hs.blkLen_le)
  · exact State.arraysFit_raise.2 hs

theorem execPlan_keeps_arraysFit {s t : State}
    (h : execPlan s = .next t) (hs : s.ArraysFit) : t.ArraysFit := by
  rcases execPlan_cases s with ⟨-, h'⟩ | ⟨-, h'⟩ <;>
    obtain rfl := Host.Outcome.next.inj (h'.symm.trans h)
  · exact State.arraysFit_respond.2 hs
  · exact State.arraysFit_raise.2 hs

theorem exec_keeps_arraysFit {i : Instr} {s t : State} (h : exec i s = .next t)
    (hs : s.ArraysFit) : t.ArraysFit := by
  cases i with
  | configure eb med => cases h; simpa using hs
  | setRadius r => cases h; simpa using hs
  | bulkLoad src n => exact execBulkLoad_keeps_arraysFit h hs
  | compress => exact execCompress_keeps_arraysFit h hs
  | setDst d => cases h; simpa using hs
  | plan => exact execPlan_keeps_arraysFit h hs
  | pack1 src n => cases h; exact State.arraysFit_deliver.2 hs
  | pack2 src n => cases h; exact State.arraysFit_deliver.2 hs
  | unpack1 src n => cases h; exact State.arraysFit_deliver.2 hs
  | unpack2 src n => cases h; exact State.arraysFit_deliver.2 hs

/-- An issued command keeps the machine's form, legal or not. -/
theorem execCommand_keeps_inv {c : Command} {s t : State} (h : execCommand c s = .next t)
    (hs : s.Inv) : t.Inv := by
  obtain ⟨hwf, hfit⟩ := State.inv_iff.1 hs
  unfold execCommand at h
  split at h
  · exact ⟨exec_mem_wf h hwf, exec_keeps_arraysFit h hfit⟩
  · cases h
    exact ⟨hwf, hfit⟩

/-! The other inputs, and the step. -/

/-- A list of commands leaves what its first command leaves, but for the inbox. -/
theorem execUntilError_keeps_inv {cs : List Command} {s t : State}
    (h : execUntilError cs s = .next t) (hs : s.Inv) : t.Inv := by
  cases cs with
  | nil => cases h; exact hs
  | cons c cs =>
    obtain ⟨u, hu⟩ := execCommand_isNext c s
    have hinv : u.Inv := execCommand_keeps_inv hu hs
    obtain rfl := Host.Outcome.next.inj ((execUntilError_cons hu).symm.trans h)
    split <;> exact hinv

/-- Reset during a command: the drawn bytes lie in the command's own output range (70_reset_and_hazards.md R271). -/
theorem State.abortedBy_inv {s : State} (c : Command) (accs : List HostAccess) (hs : s.Inv) :
    (s.abortedBy c accs).Inv := by
  obtain ⟨hwf, hfit⟩ := State.inv_iff.1 hs
  exact ⟨writeDrawn_wf (hostStored_wf hwf)
    (commandOutput_fits c { s with mem := racedView s.draws accs s.mem }), hfit.afterReset⟩

/-- A raced command runs on the memory it sees, which has the form too; the unit's bytes are then laid over the
host's, in the command's own output range (R275). -/
theorem execRaced_keeps_inv {c : Command} {accs : List HostAccess} {s t : State}
    (h : execRaced c accs s = .next t) (hs : s.Inv) : t.Inv := by
  obtain ⟨hwf, hfit⟩ := State.inv_iff.1 hs
  obtain ⟨u, hu⟩ := execCommand_isNext c { s with mem := racedView s.draws accs s.mem }
  have huInv : u.Inv := execCommand_keeps_inv hu ⟨racedView_wf hwf, hfit⟩
  obtain ⟨-, hufit⟩ := State.inv_iff.1 huInv
  obtain rfl := Host.Outcome.next.inj ((execRaced_eq hu).symm.trans h)
  exact ⟨racedStore_wf (hostStored_wf hwf)
    (commandOutput_fits c { s with mem := racedView s.draws accs s.mem }), hufit⟩

theorem receive_keeps_inv {input : HostInput} {s t : State} (h : receive input s = .next t)
    (hs : s.Inv) : t.Inv := by
  obtain ⟨hwf, hfit⟩ := State.inv_iff.1 hs
  cases input with
  | command c => exact execCommand_keeps_inv h hs
  | untilError cs => exact execUntilError_keeps_inv h hs
  | store a b => cases h; exact ⟨Memory.write_wf b hwf (toNat_lt_memorySize a), hfit⟩
  | load a => cases h; exact hs
  | reset => cases h; exact ⟨hwf, hfit.afterReset⟩
  | resetDuring c accs => cases h; exact State.abortedBy_inv c accs hs
  | resetBefore c => cases h; exact ⟨hwf, hfit.afterReset⟩
  | raced c accs => exact execRaced_keeps_inv h hs
  | early c second => cases h

/-- Taking an input from the inbox is no part of the form, so a step keeps it as `receive` does. -/
theorem step_keeps_inv {s t : State} (h : step s = .next t) (hs : s.Inv) : t.Inv := by
  cases hin : s.inbox with
  | nil =>
    obtain rfl := Host.Outcome.next.inj ((step_idle hin).symm.trans h)
    exact hs
  | cons input rest => exact receive_keeps_inv ((step_input hin).symm.trans h) hs

/-- The OPEN parameter MAX_BLOCK_LEN lies in the range of 00_scope.md R7, whatever its value. -/
theorem maxBlockLen_range : 1 ≤ Config.maxBlockLen ∧ Config.maxBlockLen < 2 ^ 62 := by
  have := Config.maxBlockLenPred.isLt
  simp only [Config.maxBlockLen]
  omega

theorem State.inv_reset : State.reset.Inv := by
  obtain ⟨hpos, hlt⟩ := maxBlockLen_range
  exact ⟨rfl, hpos, hlt, Nat.zero_le _, Nat.zero_le _, Nat.zero_le _, fun _ => rfl⟩

/-- Settles O12: `State.Inv` is itself inductive, an input at a time. -/
theorem stepKeepsMachineForm : Obligations.StepKeepsMachineForm :=
  fun _ _ hs h => step_keeps_inv h hs

/-- Settles O13: nothing is used of MAX_BLOCK_LEN but its range. -/
theorem resetHasMachineForm : Obligations.ResetHasMachineForm := State.inv_reset

end Sys2Proof.Machine
end

section
/-! SUPPORT. The registers each command writes (10_state.md R35): every command but a register's one writer leaves it,
and a valid bit is set by its own command and falls only at reset (R27). -/

namespace Sys2Proof.Machine

open Sys2Proof

/-- `t` holds what `s` holds in every register whose one writer is another operation (10_state.md R35), and in the
fields that are not the unit's to write, memory and the responses apart. -/
structure KeepsOthers (op : Op) (s t : State) : Prop where
  config : op ≠ .configure → t.errBound = s.errBound ∧ t.median = s.median ∧ t.cfgV = s.cfgV
  radius : op ≠ .setRadius → t.radius = s.radius ∧ t.radV = s.radV
  block : op ≠ .bulkLoad → t.samples = s.samples ∧ t.blkLen = s.blkLen ∧ t.loadV = s.loadV
  dst : op ≠ .setDst → t.dst = s.dst ∧ t.dstV = s.dstV
  lead : op ≠ .compress → t.lead = s.lead
  platform : t.platform = s.platform
  inbox : t.inbox = s.inbox
  hostReads : t.hostReads = s.hostReads
  draws : t.draws = s.draws

theorem KeepsOthers.refl (op : Op) (s : State) : KeepsOthers op s s where
  config _ := ⟨rfl, rfl, rfl⟩
  radius _ := ⟨rfl, rfl⟩
  block _ := ⟨rfl, rfl, rfl⟩
  dst _ := ⟨rfl, rfl⟩
  lead _ := rfl
  platform := rfl
  inbox := rfl
  hostReads := rfl
  draws := rfl

/-! Responses and the bytes at DST are outside `KeepsOthers`: every command may add to them. -/

theorem State.answer_keepsOthers (op : Op) (s : State) (st : Status) (v : Word64) :
    KeepsOthers op s (s.answer st v) := { KeepsOthers.refl op s with }

theorem State.deliver_keepsOthers (op : Op) (s : State) (r : Except Status (List Byte)) :
    KeepsOthers op s (s.deliver r) := by
  cases r with
  | ok out => exact { KeepsOthers.refl op s with }
  | error e => exact s.answer_keepsOthers op e 0

/-- COMPRESS delivers its output, and writes no register but LEAD (43_delta_xor_encoder.md R180, R184). -/
theorem execCompress_eq (s : State) :
    ∃ lead, execCompress s = .next { s.deliver (compressOutput s) with lead := lead } := by
  unfold execCompress
  cases compressOutput s with
  | ok out => exact ⟨_, rfl⟩
  | error e => exact ⟨s.lead, rfl⟩

theorem execBulkLoad_keepsOthers {src : Word64} {n : Nat} {s t : State}
    (h : execBulkLoad src n s = .next t) : KeepsOthers .bulkLoad s t := by
  rcases execBulkLoad_cases src n s with ⟨-, -, h'⟩ | ⟨-, -, h'⟩ | ⟨-, h'⟩ <;>
    obtain rfl := Host.Outcome.next.inj (h'.symm.trans h)
  · exact { KeepsOthers.refl .bulkLoad s with block := absurd rfl }
  · exact s.answer_keepsOthers _ _ _
  · exact s.answer_keepsOthers _ _ _

theorem execPlan_keepsOthers {s t : State} (h : execPlan s = .next t) : KeepsOthers .plan s t := by
  rcases execPlan_cases s with ⟨-, h'⟩ | ⟨-, h'⟩ <;>
    obtain rfl := Host.Outcome.next.inj (h'.symm.trans h) <;>
    exact s.answer_keepsOthers _ _ _

/-- A command leaves the registers of every other command (10_state.md R35). -/
theorem exec_keepsOthers {i : Instr} {s t : State} (h : exec i s = .next t) :
    KeepsOthers (opOf i) s t := by
  cases i with
  | configure eb med =>
    cases h
    exact { KeepsOthers.refl .configure s with config := absurd rfl }
  | setRadius r =>
    cases h
    exact { KeepsOthers.refl .setRadius s with radius := absurd rfl }
  | setDst d =>
    cases h
    exact { KeepsOthers.refl .setDst s with dst := absurd rfl }
  | bulkLoad src n => exact execBulkLoad_keepsOthers h
  | compress =>
    obtain ⟨lead, h'⟩ := execCompress_eq s
    obtain rfl := Host.Outcome.next.inj (h'.symm.trans h)
    exact { s.deliver_keepsOthers .compress (compressOutput s) with lead := absurd rfl }
  | plan => exact execPlan_keepsOthers h
  | pack1 | pack2 | unpack1 | unpack2 => cases h; exact s.deliver_keepsOthers _ _

/-- The commands that do not write at DST (10_state.md R35). -/
theorem outputOf_eq_nil {i : Instr} (s : State)
    (h : opOf i ∈ [Op.configure, .setRadius, .bulkLoad, .setDst, .plan]) : outputOf i s = [] := by
  cases i with
  | configure | setRadius | bulkLoad | setDst | plan => rfl
  | compress | pack1 | pack2 | unpack1 | unpack2 => simp [opOf] at h

/-- Settles O53: the registers by `exec_keepsOthers`, memory by the command's output at DST. -/
theorem eachRegisterHasOneWriter : Obligations.EachRegisterHasOneWriter := by
  intro i s t h
  have hmem := exec_mem h
  obtain ⟨hconfig, hradius, hblock, hdst, hlead, hplatform, hinbox, hreads, hdraws⟩ :=
    exec_keepsOthers h
  refine ⟨hconfig, hradius, hblock, hdst, hlead, fun hop => ?_, fun x hx => ?_,
    hplatform, hinbox, hreads, hdraws⟩
  · rw [hmem, outputOf_eq_nil s hop]
    rfl
  · rw [hmem, Memory.read_writeBytes_outside _ _ hx]

/-! The valid bits (10_state.md R27). -/

theorem opOf_eq_configure {i : Instr} : opOf i = .configure ↔ ∃ eb med, i = .configure eb med := by
  cases i <;> simp [opOf]

theorem opOf_eq_setRadius {i : Instr} : opOf i = .setRadius ↔ ∃ r, i = .setRadius r := by
  cases i <;> simp [opOf]

theorem opOf_eq_setDst {i : Instr} : opOf i = .setDst ↔ ∃ d, i = .setDst d := by
  cases i <;> simp [opOf]

theorem opOf_eq_bulkLoad {i : Instr} : opOf i = .bulkLoad ↔ ∃ src n, i = .bulkLoad src n := by
  cases i <;> simp [opOf]

theorem exec_cfgV {i : Instr} {s t : State} (h : exec i s = .next t) :
    t.cfgV = true ↔ s.cfgV = true ∨ ∃ eb med, i = .configure eb med := by
  by_cases hop : opOf i = .configure
  · obtain ⟨eb, med, rfl⟩ := opOf_eq_configure.1 hop
    cases h
    simp
  · obtain ⟨-, -, hkept⟩ := (exec_keepsOthers h).config hop
    rw [hkept, or_iff_left (mt opOf_eq_configure.2 hop)]

theorem exec_radV {i : Instr} {s t : State} (h : exec i s = .next t) :
    t.radV = true ↔ s.radV = true ∨ ∃ r, i = .setRadius r := by
  by_cases hop : opOf i = .setRadius
  · obtain ⟨r, rfl⟩ := opOf_eq_setRadius.1 hop
    cases h
    simp
  · obtain ⟨-, hkept⟩ := (exec_keepsOthers h).radius hop
    rw [hkept, or_iff_left (mt opOf_eq_setRadius.2 hop)]

theorem exec_dstV {i : Instr} {s t : State} (h : exec i s = .next t) :
    t.dstV = true ↔ s.dstV = true ∨ ∃ d, i = .setDst d := by
  by_cases hop : opOf i = .setDst
  · obtain ⟨d, rfl⟩ := opOf_eq_setDst.1 hop
    cases h
    simp
  · obtain ⟨-, hkept⟩ := (exec_keepsOthers h).dst hop
    rw [hkept, or_iff_left (mt opOf_eq_setDst.2 hop)]

/-- BULK_LOAD sets LOAD_V exactly when it succeeds (44_offload_protocol.md R212). -/
theorem execBulkLoad_loadV {src : Word64} {n : Nat} {s t : State}
    (h : execBulkLoad src n s = .next t) :
    t.loadV = true ↔ s.loadV = true ∨
      (n ≤ s.platform.maxBlockLen ∧ rangeOK s.platform src.toNat (4 * n) = true) := by
  rcases execBulkLoad_cases src n s with ⟨hn, hr, h'⟩ | ⟨hn, hr, h'⟩ | ⟨hn, h'⟩ <;>
    obtain rfl := Host.Outcome.next.inj (h'.symm.trans h)
  · simp [hn, hr]
  · simp [hr]
  · simp [not_le.2 hn]

theorem exec_loadV {i : Instr} {s t : State} (h : exec i s = .next t) :
    t.loadV = true ↔ s.loadV = true ∨ ∃ src n, i = .bulkLoad src n ∧
      n ≤ s.platform.maxBlockLen ∧ rangeOK s.platform src.toNat (4 * n) = true := by
  by_cases hop : opOf i = .bulkLoad
  · obtain ⟨src, n, rfl⟩ := opOf_eq_bulkLoad.1 hop
    simpa using execBulkLoad_loadV h
  · obtain ⟨-, -, hkept⟩ := (exec_keepsOthers h).block hop
    rw [hkept, or_iff_left]
    rintro ⟨src, n, hi, -⟩
    exact hop (opOf_eq_bulkLoad.2 ⟨src, n, hi⟩)

/-- An issued command sets the valid bit that is its own, and clears none (R27). -/
theorem execCommand_validBits {c : Command} {s t : State} (h : execCommand c s = .next t) :
    (t.cfgV = true ↔ s.cfgV = true ∨ ∃ eb med, decode c = .ok (.configure eb med)) ∧
    (t.radV = true ↔ s.radV = true ∨ ∃ r, decode c = .ok (.setRadius r)) ∧
    (t.dstV = true ↔ s.dstV = true ∨ ∃ d, decode c = .ok (.setDst d)) ∧
    (t.loadV = true ↔ s.loadV = true ∨ ∃ src n, decode c = .ok (.bulkLoad src n) ∧
      n ≤ s.platform.maxBlockLen ∧ rangeOK s.platform src.toNat (4 * n) = true) := by
  unfold execCommand at h
  cases hd : decode c with
  | ok i =>
    rw [hd] at h
    simpa only [Except.ok.injEq] using ⟨exec_cfgV h, exec_radV h, exec_dstV h, exec_loadV h⟩
  | error e =>
    rw [hd] at h
    cases h
    simp

/-- Every valid bit set in `s` is set in `t`. -/
def State.ValidBitsKept (s t : State) : Prop :=
  (s.cfgV = true → t.cfgV = true) ∧ (s.radV = true → t.radV = true) ∧
  (s.loadV = true → t.loadV = true) ∧ (s.dstV = true → t.dstV = true)

theorem State.validBitsKept_refl (s : State) : s.ValidBitsKept s := ⟨id, id, id, id⟩

theorem execCommand_validBitsKept {c : Command} {s t : State} (h : execCommand c s = .next t) :
    s.ValidBitsKept t := by
  obtain ⟨hcfg, hrad, hdst, hload⟩ := execCommand_validBits h
  exact ⟨fun hv => hcfg.2 (.inl hv), fun hv => hrad.2 (.inl hv), fun hv => hload.2 (.inl hv),
    fun hv => hdst.2 (.inl hv)⟩

theorem execUntilError_validBitsKept {cs : List Command} {s t : State}
    (h : execUntilError cs s = .next t) : s.ValidBitsKept t := by
  cases cs with
  | nil => cases h; exact s.validBitsKept_refl
  | cons c cs =>
    obtain ⟨u, hu⟩ := execCommand_isNext c s
    have hkept : s.ValidBitsKept u := execCommand_validBitsKept hu
    obtain rfl := Host.Outcome.next.inj ((execUntilError_cons hu).symm.trans h)
    split <;> exact hkept

/-- A race touches memory only, never the registers the command writes (70_reset_and_hazards.md R275). -/
theorem execRaced_validBitsKept {c : Command} {accs : List HostAccess} {s t : State}
    (h : execRaced c accs s = .next t) : s.ValidBitsKept t := by
  obtain ⟨u, hu⟩ := execCommand_isNext c { s with mem := racedView s.draws accs s.mem }
  have hkept : State.ValidBitsKept { s with mem := racedView s.draws accs s.mem } u :=
    execCommand_validBitsKept hu
  obtain rfl := Host.Outcome.next.inj ((execRaced_eq hu).symm.trans h)
  exact hkept

theorem receive_validBitsKept {input : HostInput} {s t : State}
    (hinput : assertsReset input = false) (h : receive input s = .next t) : s.ValidBitsKept t := by
  cases input with
  | command c => exact execCommand_validBitsKept h
  | untilError cs => exact execUntilError_validBitsKept h
  | store | load => cases h; exact s.validBitsKept_refl
  | reset | resetDuring | resetBefore => cases hinput
  | raced c accs => exact execRaced_validBitsKept h
  | early => cases h

/-- Settles O54: the inputs other than reset keep the bits, a command's own bit by `execCommand_validBits`. -/
theorem validBitsFallOnlyAtReset : Obligations.ValidBitsFallOnlyAtReset := by
  refine ⟨fun s t input rest hin hinput h => ?_, fun c s t h => execCommand_validBits h⟩
  have hkept : State.ValidBitsKept { s with inbox := rest } t :=
    receive_validBitsKept hinput ((step_input hin).symm.trans h)
  exact hkept

end Sys2Proof.Machine
end

section
/-! SUPPORT. Unspecified state (10_state.md R26 to R28, R36): two states that agree but for it go on agreeing, since
every command tests the valid bits of the registers it reads. -/

namespace Sys2Proof.Machine

open Sys2Proof

/-- `State.SameToHost` with its parts named. -/
structure State.Agree (s t : State) : Prop where
  cfgV : s.cfgV = t.cfgV
  radV : s.radV = t.radV
  loadV : s.loadV = t.loadV
  dstV : s.dstV = t.dstV
  config : s.cfgV = true → s.errBound = t.errBound ∧ s.median = t.median
  radius : s.radV = true → s.radius = t.radius
  dst : s.dstV = true → s.dst = t.dst
  blkLen : s.blkLen = t.blkLen
  sample : ∀ i, i < s.blkLen → s.sample i = t.sample i
  mem : s.mem = t.mem
  platform : s.platform = t.platform
  inbox : s.inbox = t.inbox
  responses : s.responses = t.responses
  hostReads : s.hostReads = t.hostReads
  draws : s.draws = t.draws

theorem State.sameToHost_iff_agree {s t : State} : s.SameToHost t ↔ s.Agree t := by
  constructor
  · rintro ⟨hcfg, hrad, hload, hdst, hc, hr, hd, hlen, hx, hm, hp, hi, ha, hh, hk⟩
    exact ⟨hcfg, hrad, hload, hdst, hc, hr, hd, hlen, hx, hm, hp, hi, ha, hh, hk⟩
  · rintro ⟨hcfg, hrad, hload, hdst, hc, hr, hd, hlen, hx, hm, hp, hi, ha, hh, hk⟩
    exact ⟨hcfg, hrad, hload, hdst, hc, hr, hd, hlen, hx, hm, hp, hi, ha, hh, hk⟩

namespace State.Agree

variable {s t : State}

/-! The updates, made to both states. -/

theorem setConfig (h : s.Agree t) (eb : Word64) (med : Word32) :
    (s.setConfig eb med).Agree (t.setConfig eb med) :=
  { h with cfgV := rfl, config := fun _ => ⟨rfl, rfl⟩ }

theorem setRadius (h : s.Agree t) (r : Word32) : (s.setRadius r).Agree (t.setRadius r) :=
  { h with radV := rfl, radius := fun _ => rfl }

theorem setDst (h : s.Agree t) (d : Word64) : (s.setDst d).Agree (t.setDst d) :=
  { h with dstV := rfl, dst := fun _ => rfl }

/-- BULK_LOAD writes every sample below its BLKLEN, so the older samples cannot be told apart below it. -/
theorem setBlock (h : s.Agree t) (block : List Word32) :
    (s.setBlock block).Agree (t.setBlock block) :=
  { h with
    loadV := rfl
    blkLen := rfl
    sample := fun i hi => by
      have hlt : i < block.length := hi
      simp only [State.sample, State.setBlock_samples, getD_overlay, if_pos hlt] }

/-- LEAD is no part of the agreement. -/
theorem withLead (h : s.Agree t) (ls lt : List (BitVec 2)) :
    Agree { s with lead := ls } { t with lead := lt } :=
  { h with }

theorem answer (h : s.Agree t) (st : Status) (v : Word64) : (s.answer st v).Agree (t.answer st v) :=
  { h with responses := by rw [State.answer_responses, State.answer_responses, h.responses] }

theorem storeAtDst (h : s.Agree t) (hd : s.dst = t.dst) (out : List Byte) :
    (s.storeAtDst out).Agree (t.storeAtDst out) :=
  { h with mem := by rw [State.storeAtDst_mem, State.storeAtDst_mem, h.mem, hd] }

/-- A delivered output agrees when DST is set wherever bytes are stored at it. -/
theorem deliver (h : s.Agree t) {r r' : Except Status (List Byte)} (hr : r = r')
    (hd : ∀ out, r = .ok out → s.dstV = true) : (s.deliver r).Agree (t.deliver r') := by
  subst hr
  cases r with
  | ok out => exact (h.storeAtDst (h.dst (hd out rfl)) out).answer _ _
  | error e => exact h.answer e 0

theorem withMem (h : s.Agree t) (m : Memory) : Agree { s with mem := m } { t with mem := m } :=
  { h with mem := rfl }

theorem withInbox (h : s.Agree t) (inputs : List HostInput) :
    Agree { s with inbox := inputs } { t with inbox := inputs } :=
  { h with inbox := rfl }

/-- The reset input leaves the same registers in every state. -/
theorem afterReset (h : s.Agree t) : s.afterReset.Agree t.afterReset :=
  { h with
    cfgV := rfl, radV := rfl, loadV := rfl, dstV := rfl, config := nofun, radius := nofun, dst := nofun
    blkLen := rfl, sample := nofun }

/-! What the commands read, once the valid bits they test are set. -/

theorem block (h : s.Agree t) : s.block = t.block := by
  unfold State.block
  rw [← h.blkLen]
  exact List.map_congr_left fun i hi => h.sample i (List.mem_range.1 hi)

theorem planned (h : s.Agree t) (hc : s.cfgV = true) (hr : s.radV = true) :
    s.planned = t.planned := by
  obtain ⟨heb, hmed⟩ := h.config hc
  simp only [State.planned, heb, hmed, h.radius hr]

theorem encoded (h : s.Agree t) (hc : s.cfgV = true) (hr : s.radV = true) :
    s.encoded = t.encoded := by
  obtain ⟨heb, hmed⟩ := h.config hc
  simp only [State.encoded, heb, hmed, h.radius hr, h.block]

theorem planReady (h : s.Agree t) : s.planReady = t.planReady := by
  simp only [State.planReady, h.cfgV, h.radV]

theorem compressReady (h : s.Agree t) : s.compressReady = t.compressReady := by
  simp only [State.compressReady, h.cfgV, h.radV, h.loadV, h.dstV]

theorem loadedSamples (h : s.Agree t) (src : Word64) (n : Nat) :
    loadedSamples src n s = loadedSamples src n t := by
  simp only [Machine.loadedSamples, h.platform, h.mem]

theorem packChecked (h : s.Agree t) (per : Nat) (top : Byte) (pack : List Byte → List Byte)
    (src : Word64) (n : Nat) :
    packChecked per top pack src n s = packChecked per top pack src n t := by
  cases hd : s.dstV with
  | false => simp only [Machine.packChecked, State.packReady, ← h.dstV, hd, if_true]
  | true =>
    simp only [Machine.packChecked, State.packReady, ← h.dstV, hd, h.dst hd, h.platform, h.mem]

theorem unpackChecked (h : s.Agree t) (per : Nat) (unpack : List Byte → Nat → List Byte)
    (src : Word64) (n : Nat) :
    unpackChecked per unpack src n s = unpackChecked per unpack src n t := by
  cases hd : s.dstV with
  | false => simp only [Machine.unpackChecked, State.packReady, ← h.dstV, hd, if_true]
  | true =>
    simp only [Machine.unpackChecked, State.packReady, ← h.dstV, hd, h.dst hd, h.platform, h.mem]

end State.Agree

/-- The four valid bits COMPRESS tests (43_delta_xor_encoder.md R180). -/
theorem State.compressReady_iff {s : State} :
    s.compressReady = true ↔ s.cfgV = true ∧ s.radV = true ∧ s.loadV = true ∧ s.dstV = true := by
  simp only [State.compressReady, Bool.and_eq_true, and_assoc]

theorem State.planReady_iff {s : State} : s.planReady = true ↔ s.cfgV = true ∧ s.radV = true := by
  simp only [State.planReady, Bool.and_eq_true]

/-- A command stores bytes at DST only when SET_DST has written it (R27). -/
theorem dstV_of_compressOutput {s : State} {out : List Byte} (h : compressOutput s = .ok out) :
    s.dstV = true := by
  obtain ⟨hready, -⟩ := compressOutput_eq_ok.1 h
  obtain ⟨-, -, -, hdst⟩ := State.compressReady_iff.1 hready
  exact hdst

theorem dstV_of_packChecked {s : State} {per : Nat} {top : Byte} {pack : List Byte → List Byte}
    {src : Word64} {n : Nat} {out : List Byte} (h : packChecked per top pack src n s = .ok out) :
    s.dstV = true := (packChecked_eq_ok.1 h).1

theorem dstV_of_unpackChecked {s : State} {per : Nat} {unpack : List Byte → Nat → List Byte}
    {src : Word64} {n : Nat} {out : List Byte} (h : unpackChecked per unpack src n s = .ok out) :
    s.dstV = true := (unpackChecked_eq_ok.1 h).1

theorem State.Agree.compressOutput {s t : State} (h : s.Agree t) :
    compressOutput s = compressOutput t := by
  cases hready : s.compressReady with
  | false => simp only [Machine.compressOutput, ← h.compressReady, hready, if_true]
  | true =>
    obtain ⟨hc, hr, -, hd⟩ := State.compressReady_iff.1 hready
    simp only [Machine.compressOutput, ← h.compressReady, hready, h.planned hc hr, h.encoded hc hr,
      h.dst hd, h.platform]

/-! Commands. -/

theorem execBulkLoad_agree {s t s' t' : State} {src : Word64} {n : Nat} (h : s.Agree t)
    (hs : execBulkLoad src n s = .next s') (ht : execBulkLoad src n t = .next t') :
    s'.Agree t' := by
  unfold execBulkLoad at hs ht
  rw [← h.loadedSamples] at ht
  cases hr : loadedSamples src n s with
  | ok block =>
    rw [hr] at hs ht
    cases hs; cases ht
    exact (h.setBlock block).answer _ _
  | error e =>
    rw [hr] at hs ht
    cases hs; cases ht
    exact h.answer e 0

theorem execCompress_agree {s t s' t' : State} (h : s.Agree t) (hs : execCompress s = .next s')
    (ht : execCompress t = .next t') : s'.Agree t' := by
  obtain ⟨ls, hs'⟩ := execCompress_eq s
  obtain ⟨lt, ht'⟩ := execCompress_eq t
  obtain rfl := Host.Outcome.next.inj (hs'.symm.trans hs)
  obtain rfl := Host.Outcome.next.inj (ht'.symm.trans ht)
  exact (h.deliver h.compressOutput fun _ => dstV_of_compressOutput).withLead ls lt

theorem execPlan_agree {s t s' t' : State} (h : s.Agree t) (hs : execPlan s = .next s')
    (ht : execPlan t = .next t') : s'.Agree t' := by
  unfold execPlan at hs ht
  rw [← h.planReady] at ht
  cases hready : s.planReady with
  | false =>
    rw [hready] at hs ht
    cases hs; cases ht
    exact h.answer _ _
  | true =>
    obtain ⟨hc, hr⟩ := State.planReady_iff.1 hready
    rw [hready] at hs ht
    rw [← h.planned hc hr] at ht
    cases hs; cases ht
    exact h.answer _ _

theorem exec_agree {i : Instr} {s t s' t' : State} (h : s.Agree t) (hs : exec i s = .next s')
    (ht : exec i t = .next t') : s'.Agree t' := by
  cases i with
  | configure eb med => cases hs; cases ht; exact (h.setConfig eb med).answer _ _
  | setRadius r => cases hs; cases ht; exact (h.setRadius r).answer _ _
  | setDst d => cases hs; cases ht; exact (h.setDst d).answer _ _
  | bulkLoad src n => exact execBulkLoad_agree h hs ht
  | compress => exact execCompress_agree h hs ht
  | plan => exact execPlan_agree h hs ht
  | pack1 src n =>
    cases hs; cases ht
    exact h.deliver (h.packChecked ..) fun _ => dstV_of_packChecked
  | pack2 src n =>
    cases hs; cases ht
    exact h.deliver (h.packChecked ..) fun _ => dstV_of_packChecked
  | unpack1 src n =>
    cases hs; cases ht
    exact h.deliver (h.unpackChecked ..) fun _ => dstV_of_unpackChecked
  | unpack2 src n =>
    cases hs; cases ht
    exact h.deliver (h.unpackChecked ..) fun _ => dstV_of_unpackChecked

theorem execCommand_agree {c : Command} {s t s' t' : State} (h : s.Agree t)
    (hs : execCommand c s = .next s') (ht : execCommand c t = .next t') : s'.Agree t' := by
  unfold execCommand at hs ht
  cases hd : decode c with
  | ok i =>
    rw [hd] at hs ht
    exact exec_agree h hs ht
  | error e =>
    rw [hd] at hs ht
    cases hs; cases ht
    exact h.answer _ _

/-! The bytes a command writes at DST, which reset and races draw from. -/

theorem outputOf_agree {s t : State} (i : Instr) (h : s.Agree t) : outputOf i s = outputOf i t := by
  cases i with
  | configure | setRadius | bulkLoad | setDst | plan => rfl
  | compress => exact congrArg bytesOf h.compressOutput
  | pack1 | pack2 => exact congrArg bytesOf (h.packChecked ..)
  | unpack1 | unpack2 => exact congrArg bytesOf (h.unpackChecked ..)

theorem bytesOf_eq_nil_or {r : Except Status (List Byte)} {P : Prop}
    (h : ∀ out, r = .ok out → P) : bytesOf r = [] ∨ P := by
  cases r with
  | ok out => exact .inr (h out rfl)
  | error e => exact .inl rfl

theorem outputOf_eq_nil_or_dstV (i : Instr) (s : State) : outputOf i s = [] ∨ s.dstV = true := by
  cases i with
  | configure | setRadius | bulkLoad | setDst | plan => exact .inl rfl
  | compress => exact bytesOf_eq_nil_or fun _ => dstV_of_compressOutput
  | pack1 | pack2 => exact bytesOf_eq_nil_or fun _ => dstV_of_packChecked
  | unpack1 | unpack2 => exact bytesOf_eq_nil_or fun _ => dstV_of_unpackChecked

theorem commandOutput_agree {s t : State} (c : Command) (h : s.Agree t) :
    commandOutput c s = commandOutput c t := by
  unfold commandOutput
  split
  · exact outputOf_agree _ h
  · rfl

/-- Where the two states hold different DST, an issued command has no output. -/
theorem commandOutput_eq_nil_or_dst {s t : State} (c : Command) (h : s.Agree t) :
    commandOutput c s = [] ∨ s.dst = t.dst := by
  unfold commandOutput
  split
  · exact (outputOf_eq_nil_or_dstV _ s).imp_right h.dst
  · exact .inl rfl

/-! With no bytes to write, the address they would go to does not matter. -/

theorem writeDrawn_base {k : Nat} {m : Memory} {a a' : Nat} {out : List Byte}
    (h : out = [] ∨ a = a') : writeDrawn k m a out = writeDrawn k m a' out := by
  rcases h with rfl | rfl <;> rfl

theorem racedStore_base {k : Nat} {accs : List HostAccess} {m : Memory} {a a' : Nat}
    {out : List Byte} (h : out = [] ∨ a = a') :
    racedStore k accs m a out = racedStore k accs m a' out := by
  rcases h with rfl | rfl <;> rfl

/-- A host read during a command without output is a plain read. -/
theorem racedReads_load_nil (k : Nat) (a : Word64) (accs : List HostAccess) (m : Memory)
    (base : Nat) :
    racedReads k (.load a :: accs) m base [] = m.read a.toNat :: racedReads (k + 1) accs m base [] := by
  have hout : (decide (base ≤ a.toNat) && decide (a.toNat < base + 0)) = false := by
    rw [Bool.and_eq_false_iff, decide_eq_false_iff_not, decide_eq_false_iff_not]
    omega
  simp only [racedReads, List.length_nil, hout, Bool.false_and, Bool.false_eq_true, if_false]

theorem racedReads_base {k : Nat} {accs : List HostAccess} {m : Memory} {a a' : Nat}
    {out : List Byte} (h : out = [] ∨ a = a') :
    racedReads k accs m a out = racedReads k accs m a' out := by
  rcases h with rfl | rfl
  · induction accs generalizing k m with
    | nil => rfl
    | cons acc accs ih =>
      cases acc with
      | store b v => exact ih
      | load b => rw [racedReads_load_nil, racedReads_load_nil, ih]
  · rfl

/-! The other inputs, and the step. -/

/-- What a command sees of memory while the host writes it depends on memory and the draws alone. -/
theorem State.Agree.racedView {s t : State} (h : s.Agree t) (accs : List HostAccess) :
    Agree { s with mem := racedView s.draws accs s.mem }
      { t with mem := racedView t.draws accs t.mem } :=
  { h with mem := by rw [h.draws, h.mem] }

/-- A command issued while the host writes memory has one output, and where the two states hold different DST it has
none. -/
theorem racedOutput_agree {s t : State} (c : Command) (accs : List HostAccess) (h : s.Agree t) :
    commandOutput c { s with mem := racedView s.draws accs s.mem } =
      commandOutput c { t with mem := racedView t.draws accs t.mem } ∧
    (commandOutput c { t with mem := racedView t.draws accs t.mem } = [] ∨
      s.dst.toNat = t.dst.toNat) := by
  have hout := commandOutput_agree c (h.racedView accs)
  refine ⟨hout, hout ▸ ?_⟩
  exact (commandOutput_eq_nil_or_dst c (h.racedView accs)).imp_right (congrArg BitVec.toNat)

theorem State.abortedBy_agree {s t : State} (c : Command) (accs : List HostAccess)
    (h : s.Agree t) : (s.abortedBy c accs).Agree (t.abortedBy c accs) := by
  obtain ⟨hout, hbase⟩ := racedOutput_agree c accs h
  unfold State.abortedBy
  dsimp only
  rw [hout, writeDrawn_base hbase, racedReads_base hbase, h.draws, h.mem, h.hostReads]
  exact { h.afterReset with mem := rfl, hostReads := rfl, draws := rfl }

theorem execRaced_agree {c : Command} {accs : List HostAccess} {s t s' : State} (h : s.Agree t)
    (hs : execRaced c accs s = .next s') : ∃ t', execRaced c accs t = .next t' ∧ s'.Agree t' := by
  obtain ⟨hout, hbase⟩ := racedOutput_agree c accs h
  obtain ⟨u, hu⟩ := execCommand_isNext c { s with mem := racedView s.draws accs s.mem }
  obtain ⟨v, hv⟩ := execCommand_isNext c { t with mem := racedView t.draws accs t.mem }
  have huv := execCommand_agree (h.racedView accs) hu hv
  obtain rfl := Host.Outcome.next.inj ((execRaced_eq hu).symm.trans hs)
  refine ⟨_, execRaced_eq hv, ?_⟩
  rw [hout, racedStore_base hbase, racedReads_base hbase, h.draws, h.mem, h.hostReads]
  exact { huv with mem := rfl, hostReads := rfl, draws := rfl }

theorem State.Agree.lastOk {s t : State} (h : s.Agree t) : s.lastOk = t.lastOk := by
  simp only [State.lastOk, h.responses]

theorem execUntilError_agree {cs : List Command} {s t s' : State} (h : s.Agree t)
    (hs : execUntilError cs s = .next s') : ∃ t', execUntilError cs t = .next t' ∧ s'.Agree t' := by
  cases cs with
  | nil => cases hs; exact ⟨t, rfl, h⟩
  | cons c cs =>
    obtain ⟨u, hu⟩ := execCommand_isNext c s
    obtain ⟨v, hv⟩ := execCommand_isNext c t
    have huv := execCommand_agree h hu hv
    obtain rfl := Host.Outcome.next.inj ((execUntilError_cons hu).symm.trans hs)
    refine ⟨_, execUntilError_cons hv, ?_⟩
    rw [← huv.lastOk, ← huv.inbox]
    split
    · exact huv.withInbox _
    · exact huv

theorem receive_agree {input : HostInput} {s t s' : State} (h : s.Agree t)
    (hs : receive input s = .next s') : ∃ t', receive input t = .next t' ∧ s'.Agree t' := by
  cases input with
  | command c =>
    obtain ⟨t', ht⟩ := execCommand_isNext c t
    exact ⟨t', ht, execCommand_agree h hs ht⟩
  | untilError cs => exact execUntilError_agree h hs
  | store a b =>
    cases hs
    exact ⟨_, rfl, { h with mem := congrArg (·.write a.toNat b) h.mem }⟩
  | load a =>
    cases hs
    exact ⟨_, rfl, { h with hostReads := by simp only [h.hostReads, h.mem] }⟩
  | reset => cases hs; exact ⟨_, rfl, h.afterReset⟩
  | resetDuring c accs => cases hs; exact ⟨_, rfl, State.abortedBy_agree c accs h⟩
  | resetBefore c => cases hs; exact ⟨_, rfl, h.afterReset⟩
  | raced c accs => exact execRaced_agree h hs
  | early c second => cases hs

theorem step_agree {s t s' : State} (h : s.Agree t) (hs : step s = .next s') :
    ∃ t', step t = .next t' ∧ s'.Agree t' := by
  cases hin : s.inbox with
  | nil =>
    obtain rfl := Host.Outcome.next.inj ((step_idle hin).symm.trans hs)
    exact ⟨t, step_idle (h.inbox ▸ hin), h⟩
  | cons input rest =>
    rw [step_input (h.inbox ▸ hin)]
    exact receive_agree (h.withInbox rest) ((step_input hin).symm.trans hs)

/-- Settles O55: agreement is itself kept by every input, an input at a time. -/
theorem unspecifiedStateIsNeverSeen : Obligations.UnspecifiedStateIsNeverSeen := by
  intro s t s' h hs
  obtain ⟨t', ht, h'⟩ := step_agree (State.sameToHost_iff_agree.1 h) hs
  exact ⟨t', ht, State.sameToHost_iff_agree.2 h'⟩

end Sys2Proof.Machine
end

section
/-! SUPPORT. Memory as its users see it (20_memory.md): the host's own stores and loads between commands (R55, R58), the
range check in the words of R53, and COMPRESS, whose input is the loaded block and not memory (R61). -/

namespace Sys2Proof.Machine

open Sys2Proof

/-! The host's own accesses. -/

theorem step_store {s : State} {a : Word64} {b : Byte} {rest : List HostInput}
    (h : s.inbox = .store a b :: rest) :
    step s = .next { s with inbox := rest, mem := s.mem.write a.toNat b } := step_input h

theorem step_load {s : State} {a : Word64} {rest : List HostInput}
    (h : s.inbox = .load a :: rest) :
    step s = .next { s with inbox := rest, hostReads := s.hostReads ++ [s.mem.read a.toNat] } :=
  step_input h

/-- Settles O14, by the laws of a read after a write. -/
theorem hostStoresAreReadBack : Obligations.HostStoresAreReadBack := by
  intro s a b rest hwf
  constructor
  · intro hin
    exact ⟨_, step_store hin, Memory.read_write_self hwf a.toNat b,
      fun _ hx => Memory.read_write_of_ne s.mem b hx, rfl⟩
  · exact step_load

/-! The range check. -/

theorem accessible_iff_outside (p : Platform) (x : Nat) :
    accessible p x = true ↔
      x < Config.memorySize ∧ ∀ r ∈ p.inaccessible, x < r.base ∨ r.base + r.size ≤ x := by
  rw [accessible_iff]
  exact and_congr_right fun _ => forall₂_congr fun r _ => by omega

/-- An empty range asks nothing of Accessible. -/
theorem rangeAllowed_zero_iff (p : Platform) (a : Nat) :
    RangeAllowed p a 0 ↔ a ≤ Config.memorySize := by
  constructor
  · exact fun h => h.1
  · exact fun ha => ⟨ha, fun x hx hx' => by omega⟩

/-- A range of one address or more shares none with any region exactly when each of its addresses is Accessible, once
it ends at or below 2^64. -/
theorem regionsAvoid_iff_accessible {p : Platform} {a n : Nat} (hn : n ≠ 0)
    (hfit : a + n ≤ Config.memorySize) :
    (∀ r ∈ p.inaccessible, regionAvoids r a n = true) ↔
      ∀ x, a ≤ x → x < a + n → accessible p x = true := by
  constructor
  · intro h x hx hx'
    exact (accessible_iff p x).2
      ⟨by omega, fun r hr => (regionAvoids_iff r a n hn).1 (h r hr) x hx hx'⟩
  · intro h r hr
    refine (regionAvoids_iff r a n hn).2 fun x hx hx' => ?_
    obtain ⟨-, hout⟩ := (accessible_iff p x).1 (h x hx hx')
    exact hout r hr

theorem rangeOK_iff_rangeAllowed {p : Platform} {a n : Nat} (ha : a ≤ Config.memorySize) :
    rangeOK p a n = true ↔ RangeAllowed p a n := by
  by_cases hn : n = 0
  · subst hn
    simp [rangeOK, rangeAllowed_zero_iff, ha]
  · simp only [rangeOK, hn, decide_false, Bool.false_or, Bool.and_eq_true, decide_eq_true_eq,
      List.all_eq_true]
    exact and_congr_right (regionsAvoid_iff_accessible hn)

/-- Settles O15: the check of a region at a time is the check of an address at a time. -/
theorem rangeCheckIsExact : Obligations.RangeCheckIsExact :=
  ⟨accessible_iff_outside, fun _ a _ => rangeOK_iff_rangeAllowed (toNat_lt_memorySize a).le⟩

/-! COMPRESS and memory. -/

/-- The bytes of COMPRESS, or its error, come from the registers and the block alone (43_delta_xor_encoder.md R180). -/
theorem compressOutput_withMem (s : State) (m : Memory) :
    compressOutput { s with mem := m } = compressOutput s := rfl

/-- On another memory COMPRESS answers the same and leaves the same registers. -/
theorem execCompress_withMem {s t : State} (m : Memory) (h : execCompress s = .next t) :
    ∃ u, execCompress { s with mem := m } = .next u ∧ u = { t with mem := u.mem } := by
  unfold execCompress at h ⊢
  rw [compressOutput_withMem]
  cases ho : compressOutput s with
  | ok out | error e => rw [ho] at h; cases h; exact ⟨_, rfl, rfl⟩

/-- After a command its output is what memory holds from DST on. -/
theorem exec_read_output {i : Instr} {s t : State} (h : exec i s = .next t) (hwf : s.mem.wf = true)
    {j : Nat} (hj : j < (outputOf i s).length) :
    t.mem.read (s.dst.toNat + j) = (outputOf i s)[j] := by
  rw [exec_mem h]
  exact Memory.read_writeBytes_inside hwf (outputOf_fits i s) hj

/-- Settles O43: both runs of COMPRESS store the one output that `compressOutput_withMem` gives. -/
theorem samplesAreSnapshot : Obligations.SamplesAreSnapshot := by
  constructor
  · intro s a b rest hin
    exact ⟨_, step_store hin, rfl, rfl⟩
  · intro s t m hwf hm ht
    obtain ⟨u, hu, hregs⟩ := execCompress_withMem m ht
    refine ⟨u, hu, hregs, fun j hj => ?_⟩
    have hread : u.mem.read (s.dst.toNat + j) = (outputOf .compress s)[j] :=
      exec_read_output (i := .compress) hu hm hj
    rw [hread, exec_read_output ht hwf hj]

end Sys2Proof.Machine
end

section
/-! SUPPORT. Decoder against encoder (30_encoding.md R81 to R83, R87): the words an operation's code decides, and the
operand words a command is assembled from. -/

namespace Sys2Proof.Machine

open Sys2Proof

/-! Operand words. -/

/-- The operand words the encoder writes are assembled to the command again (R83). -/
theorem assembleOperands_operandWords {i : Instr} (h : i.wf = true) :
    assembleOperands (opOf i) (operandA i) (operandB i) = i := by
  cases i with
  | configure eb med => exact congrArg (Instr.configure eb) (lowHalf_setWidth med)
  | setRadius r => exact congrArg Instr.setRadius (lowHalf_setWidth r)
  | bulkLoad src n => exact congrArg (Instr.bulkLoad src) (toNat_ofNat_count h)
  | pack1 src n => exact congrArg (Instr.pack1 src) (toNat_ofNat_count h)
  | pack2 src n => exact congrArg (Instr.pack2 src) (toNat_ofNat_count h)
  | unpack1 src n => exact congrArg (Instr.unpack1 src) (toNat_ofNat_count h)
  | unpack2 src n => exact congrArg (Instr.unpack2 src) (toNat_ofNat_count h)
  | compress | setDst | plan => rfl

theorem wf_assembleOperands (op : Op) (a b : Word64) : (assembleOperands op a b).wf = true := by
  cases op with
  | configure | setRadius | compress | setDst | plan => rfl
  | bulkLoad | pack1 | pack2 | unpack1 | unpack2 => exact countFits_toNat b

/-- Settles O1: the code names the operation, and the operand words give its operands back. -/
theorem encodedCommandsDecodeBack : Obligations.EncodedCommandsDecodeBack := by
  intro i hwf
  calc decode (encode i)
      = .ok (assembleOperands (opOf i) (operandA i) (operandB i)) := decode_opCode _ _ _
    _ = .ok i := congrArg Except.ok (assembleOperands_operandWords hwf)

/-! Command words. -/

/-- With RSV zero, the number in OP is the whole command word (R81). -/
theorem eq_ofNat_of_fields {w : Word32} {n : Nat} (hrsv : rsvField w = 0)
    (hop : (opField w).toNat = n) : w = BitVec.ofNat 32 n := by
  have hhigh : w.toNat / 256 = 0 := by rw [← toNat_rsvField, hrsv]; rfl
  rw [toNat_opField] at hop
  apply BitVec.eq_of_toNat_eq
  rw [BitVec.toNat_ofNat]
  omega

/-- The one word that names an operation is its code (R82, R87). -/
theorem decodeOp_eq_ok_iff {w : Word32} {op : Op} : decodeOp w = .ok op ↔ w = opCode op := by
  constructor
  · intro h
    unfold decodeOp at h
    split at h
    · cases h
    · next hrsv =>
      have hword := eq_ofNat_of_fields (not_not.1 hrsv) rfl
      split at h <;> cases h
      all_goals
        next hop => rwa [hop] at hword
  · rintro rfl
    exact decodeOp_opCode op

/-- The codes are the numbers 1 to 10 (R82). -/
theorem exists_opCode_eq_ofNat {n : Nat} (hpos : 1 ≤ n) (hle : n ≤ 10) :
    ∃ op, opCode op = BitVec.ofNat 32 n := by
  interval_cases n
  exacts [⟨.configure, rfl⟩, ⟨.setRadius, rfl⟩, ⟨.bulkLoad, rfl⟩, ⟨.compress, rfl⟩, ⟨.setDst, rfl⟩,
    ⟨.plan, rfl⟩, ⟨.pack1, rfl⟩, ⟨.pack2, rfl⟩, ⟨.unpack1, rfl⟩, ⟨.unpack2, rfl⟩]

theorem fields_opCode (op : Op) :
    rsvField (opCode op) = 0 ∧ 1 ≤ (opField (opCode op)).toNat ∧
      (opField (opCode op)).toNat ≤ 10 := by
  cases op <;> decide

/-- A triple decodes exactly when its word is the code of an operation. -/
theorem exists_decode_iff_opCode {c : Command} :
    (∃ i, decode c = .ok i) ↔ ∃ op, c.word = opCode op := by
  constructor
  · rintro ⟨i, hi⟩
    obtain ⟨op, hop, -⟩ := decode_eq_ok hi
    exact ⟨op, decodeOp_eq_ok_iff.1 hop⟩
  · rintro ⟨op, hop⟩
    exact ⟨_, decode_of_decodeOp (decodeOp_eq_ok_iff.2 hop)⟩

/-- The legal words of R81, by their two fields. -/
theorem exists_decode_iff_fields {c : Command} :
    (∃ i, decode c = .ok i) ↔
      rsvField c.word = 0 ∧ 1 ≤ (opField c.word).toNat ∧ (opField c.word).toNat ≤ 10 := by
  rw [exists_decode_iff_opCode]
  constructor
  · rintro ⟨op, hop⟩
    rw [hop]
    exact fields_opCode op
  · rintro ⟨hrsv, hpos, hle⟩
    obtain ⟨op, hop⟩ := exists_opCode_eq_ofNat hpos hle
    exact ⟨op, (eq_ofNat_of_fields hrsv rfl).trans hop.symm⟩

/-- Settles O2: a decoded word is its operation's code, and O1 decodes the triple written for it. -/
theorem decodedCommandsAreWellFormed : Obligations.DecodedCommandsAreWellFormed := by
  intro c i hi
  obtain ⟨op, hop, rfl⟩ := decode_eq_ok hi
  have hwf := wf_assembleOperands op c.a c.b
  have hword : opCode (opOf (assembleOperands op c.a c.b)) = c.word := by
    rw [opOf_assembleOperands, decodeOp_eq_ok_iff.1 hop]
  exact ⟨hwf, hword, (encodedCommandsDecodeBack _ hwf).trans hi.symm⟩

/-- Settles O3. -/
theorem legalWordsAreTheTenCodes : Obligations.LegalWordsAreTheTenCodes :=
  fun c => ⟨toNat_opField c.word, toNat_rsvField c.word, exists_decode_iff_fields⟩

/-- Settles O6: eight closed words. -/
theorem tableWordsDecode : Obligations.TableWordsDecode := by
  unfold Obligations.TableWordsDecode
  decide

end Sys2Proof.Machine
end

section
/-! SUPPORT. Commands at the port (30_encoding.md R80, R84, R89): what is decoded is what runs, an illegal word is only
answered, and every command leaves one response more and the inputs still to come. -/

namespace Sys2Proof.Machine

open Sys2Proof

theorem execCommand_of_decode_ok {c : Command} {i : Instr} (s : State) (h : decode c = .ok i) :
    execCommand c s = exec i s := by
  simp only [execCommand, h]

theorem execCommand_of_decode_error {c : Command} {e : DecodeError} (s : State)
    (h : decode c = .error e) : execCommand c s = .next (s.raise .illegalCommand) := by
  simp only [execCommand, h]

/-- Settles O4: such a word decodes to an error, which only raises ILLEGAL_COMMAND. -/
theorem illegalWordChangesNothing : Obligations.IllegalWordChangesNothing := by
  intro c s hillegal
  cases hd : decode c with
  | ok i => exact absurd (exists_decode_iff_fields.1 ⟨i, hd⟩) hillegal
  | error e => exact execCommand_of_decode_error s hd

/-- Settles O5: each word is the code of its operation, over any two operand words. -/
theorem operandsAreTakenAsTabled : Obligations.OperandsAreTakenAsTabled :=
  ⟨fun a b => ⟨decode_opCode .configure a b, decode_opCode .setRadius a b,
    decode_opCode .bulkLoad a b, decode_opCode .compress a b, decode_opCode .setDst a b,
    decode_opCode .plan a b, decode_opCode .pack1 a b, decode_opCode .pack2 a b,
    decode_opCode .unpack1 a b, decode_opCode .unpack2 a b⟩,
  fun _ _ s => execCommand_of_decode_ok s⟩

theorem step_command {s : State} {c : Command} {rest : List HostInput}
    (h : s.inbox = .command c :: rest) : step s = execCommand c { s with inbox := rest } :=
  step_input h

theorem step_withFetchWord (s : State) (nbits w : Nat) :
    step (s.withFetchWord nbits w) = execCommand (commandOfBits nbits w) s :=
  step_command rfl

theorem decodeTableWord_eq_some {nbits w : Nat} {i : Instr} (h : decodeTableWord nbits w = some i) :
    decode (commandOfBits nbits w) = .ok i := by
  unfold decodeTableWord at h
  split at h
  · next hd => rw [hd, Option.some.inj h]
  · cases h

/-- Settles O7. -/
theorem stepRunsIssuedCommand : Obligations.StepRunsIssuedCommand := by
  constructor
  · intro s c i rest hin hd _
    rw [step_command hin, execCommand_of_decode_ok _ hd]
  · intro s nbits w i hd
    rw [step_withFetchWord, execCommand_of_decode_ok s (decodeTableWord_eq_some hd)]

/-! One response a command. -/

/-- `t` holds the responses of `s` and one more. -/
def State.AnsweredOnce (s t : State) : Prop := ∃ r, t.responses = s.responses ++ [r]

theorem State.answer_answeredOnce (s : State) (st : Status) (v : Word64) :
    s.AnsweredOnce (s.answer st v) := ⟨_, s.answer_responses st v⟩

theorem State.deliver_answeredOnce (s : State) (r : Except Status (List Byte)) :
    s.AnsweredOnce (s.deliver r) := by
  cases r with
  | ok out => exact (s.storeAtDst out).answer_answeredOnce _ _
  | error e => exact s.answer_answeredOnce e 0

theorem exec_answeredOnce {i : Instr} {s t : State} (h : exec i s = .next t) :
    s.AnsweredOnce t := by
  cases i with
  | configure eb med => cases h; exact (s.setConfig eb med).answer_answeredOnce _ _
  | setRadius r => cases h; exact (s.setRadius r).answer_answeredOnce _ _
  | setDst d => cases h; exact (s.setDst d).answer_answeredOnce _ _
  | bulkLoad src n =>
    rcases execBulkLoad_cases src n s with ⟨-, -, h'⟩ | ⟨-, -, h'⟩ | ⟨-, h'⟩ <;>
      obtain rfl := Host.Outcome.next.inj (h'.symm.trans h)
    · exact (s.setBlock _).answer_answeredOnce _ _
    · exact s.answer_answeredOnce _ _
    · exact s.answer_answeredOnce _ _
  | compress =>
    obtain ⟨lead, h'⟩ := execCompress_eq s
    obtain rfl := Host.Outcome.next.inj (h'.symm.trans h)
    exact s.deliver_answeredOnce (compressOutput s)
  | plan =>
    rcases execPlan_cases s with ⟨-, h'⟩ | ⟨-, h'⟩ <;>
      obtain rfl := Host.Outcome.next.inj (h'.symm.trans h) <;>
      exact s.answer_answeredOnce _ _
  | pack1 | pack2 | unpack1 | unpack2 => cases h; exact s.deliver_answeredOnce _

/-- An issued command, legal or not, completes with one response and leaves the inputs after it (R80, R84). -/
theorem execCommand_answers (c : Command) (s : State) :
    ∃ t r, execCommand c s = .next t ∧ t.responses = s.responses ++ [r] ∧ t.inbox = s.inbox := by
  cases hd : decode c with
  | ok i =>
    obtain ⟨t, ht⟩ := exec_isNext i s
    obtain ⟨r, hr⟩ := exec_answeredOnce ht
    exact ⟨t, r, (execCommand_of_decode_ok s hd).trans ht, hr, (exec_keepsOthers ht).inbox⟩
  | error e => exact ⟨_, _, execCommand_of_decode_error s hd, s.raise_responses _, s.raise_inbox _⟩

/-- A race touches neither the response nor the inputs to come (70_reset_and_hazards.md R275). -/
theorem execRaced_answers (c : Command) (accs : List HostAccess) (s : State) :
    ∃ t r, execRaced c accs s = .next t ∧ t.responses = s.responses ++ [r] ∧
      t.inbox = s.inbox := by
  obtain ⟨t, r, ht, hr, hin⟩ :=
    execCommand_answers c { s with mem := racedView s.draws accs s.mem }
  exact ⟨_, r, execRaced_eq ht, hr, hin⟩

/-- Settles O9. -/
theorem everyCommandIsAnsweredOnce : Obligations.EveryCommandIsAnsweredOnce := by
  intro s c rest
  constructor
  · intro hin
    rw [step_command hin]
    exact execCommand_answers c { s with inbox := rest }
  · intro accs hin
    rw [step_input hin]
    exact execRaced_answers c accs { s with inbox := rest }

/-! ENCODE_BLOCK (30_encoding.md R89). -/

theorem decode_encodeBlockCommands (eb med rad src len dst : Word64) :
    (encodeBlockCommands eb med rad src len dst).map decode =
      [.ok (.setDst dst), .ok (.configure eb (lowHalf med)), .ok (.setRadius (lowHalf rad)),
        .ok (.bulkLoad src len.toNat), .ok .compress] := by
  simp only [encodeBlockCommands, List.map_cons, List.map_nil, decode_opCode, assembleOperands]

/-- Settles O56: the first command of a list answers, and the list goes on by the status it answers. -/
theorem encodeBlockStopsAtFirstError : Obligations.EncodeBlockStopsAtFirstError := by
  refine ⟨decode_encodeBlockCommands, fun s rest hin => step_input hin, fun s c cs rest hin => ?_⟩
  obtain ⟨t, r, ht, hr, hinbox⟩ := execCommand_answers c { s with inbox := rest }
  refine ⟨t, r, ht, hr, ?_⟩
  calc step s
      = execUntilError (c :: cs) { s with inbox := rest } := step_input hin
    _ = .next (if t.lastOk then { t with inbox := .untilError cs :: t.inbox } else t) :=
        execUntilError_cons ht
    _ = .next (if r.status = .ok then { t with inbox := .untilError cs :: rest } else t) := by
        simp only [lastOk_of_append hr, hinbox, decide_eq_true_eq]

end Sys2Proof.Machine
end

section
/-! SUPPORT. The packing functions bit by bit (41_bit_packer.md R110 to R114): which bit of which element each bit of a
packed byte is, which bits of the packed bytes each unpacked element is, and how far the two undo each other. -/

namespace Sys2Proof.Machine

open Sys2Proof

/-! Counts of bytes. -/

theorem lt_ceilDiv_iff {j n m : Nat} (hm : 0 < m) : j < ceilDiv n m ↔ m * j < n := by
  unfold ceilDiv
  rw [Nat.lt_div_iff_mul_lt hm, mul_comm]
  omega

theorem ceilDiv_bounds {m : Nat} (n : Nat) (hm : 0 < m) :
    m * ceilDiv n m < n + m ∧ n ≤ m * ceilDiv n m := by
  have hdiv := Nat.div_add_mod (n + (m - 1)) m
  have hmod := Nat.mod_lt (n + (m - 1)) hm
  unfold ceilDiv
  omega

/-! Elements. -/

theorem elemOr0_of_lt {e : List Byte} {i : Nat} (hi : i < e.length) : elemOr0 e i = e[i] := by
  rw [elemOr0, if_pos hi, List.getD_eq_getElem _ _ hi]

/-- A bound on the elements holds past the end, too. -/
theorem toNat_elemOr0_le {e : List Byte} {top : Nat} (he : ∀ x ∈ e, x.toNat ≤ top) (i : Nat) :
    (elemOr0 e i).toNat ≤ top := by
  by_cases hi : i < e.length
  · rw [elemOr0_of_lt hi]
    exact he _ (List.getElem_mem hi)
  · rw [elemOr0, if_neg hi]
    exact Nat.zero_le top

/-- A value of `w` bits has no bit at `w` or above. -/
theorem getLsbD_eq_false_of_toNat_lt {x : Byte} {w i : Nat} (hx : x.toNat < 2 ^ w) (hi : w ≤ i) :
    x.getLsbD i = false :=
  Nat.testBit_lt_two_pow (hx.trans_le (Nat.pow_le_pow_right (by decide) hi))

theorem eq_zero_or_one_of_toNat_le {x : Byte} (hx : x.toNat ≤ 1) : x = 0 ∨ x = 1 :=
  (Nat.le_one_iff_eq_zero_or_eq_one.1 hx).imp BitVec.eq_of_toNat_eq BitVec.eq_of_toNat_eq

/-! Packing. -/

theorem getD_pack1 {e : List Byte} {j : Nat} (hj : j < (pack1 e).length) :
    (pack1 e).getD j 0 = pack1Byte e j := by
  rw [List.getD_eq_getElem _ _ hj, getElem_pack1]

theorem getD_pack2 {e : List Byte} {j : Nat} (hj : j < (pack2 e).length) :
    (pack2 e).getD j 0 = pack2Byte e j := by
  rw [List.getD_eq_getElem _ _ hj, getElem_pack2]

/-- Bit b of a packed byte is flag 7-b of its group (R110): no other flag reaches it, having no bit above 0. -/
theorem getLsbD_pack1Byte {e : List Byte} (he : ∀ x ∈ e, x.toNat ≤ 1) (j : Nat) {b : Nat}
    (hb : b < 8) : (pack1Byte e j).getLsbD b = (elemOr0 e (8 * j + (7 - b))).getLsbD 0 := by
  have hhigh : ∀ i m, (elemOr0 e i).getLsbD (m + 1) = false := fun i m =>
    getLsbD_eq_false_of_toNat_lt (w := 1) (Nat.lt_succ_of_le (toNat_elemOr0_le he i)) (by omega)
  simp only [pack1Byte_eq, BitVec.getLsbD_or, BitVec.getLsbD_shiftLeft]
  interval_cases b <;> simp [hhigh, -BitVec.getLsbD_eq_getElem]

/-- Bit b of a packed byte is bit b mod 2 of value 3 - b/2 of its group (R111): no other value reaches it, having no
bit above 1. -/
theorem getLsbD_pack2Byte {e : List Byte} (he : ∀ x ∈ e, x.toNat ≤ 3) (j : Nat) {b : Nat}
    (hb : b < 8) :
    (pack2Byte e j).getLsbD b = (elemOr0 e (4 * j + (3 - b / 2))).getLsbD (b % 2) := by
  have hhigh : ∀ i m, (elemOr0 e i).getLsbD (m + 2) = false := fun i m =>
    getLsbD_eq_false_of_toNat_lt (w := 2) (Nat.lt_succ_of_le (toNat_elemOr0_le he i)) (by omega)
  simp only [pack2Byte_eq, BitVec.getLsbD_or, BitVec.getLsbD_shiftLeft]
  interval_cases b <;> simp [hhigh, -BitVec.getLsbD_eq_getElem]

/-- The field of value k in a packed byte (R111). -/
theorem extractLsb'_pack2Byte {e : List Byte} (he : ∀ x ∈ e, x.toNat ≤ 3) (j : Nat) {k : Nat}
    (hk : k < 4) :
    (pack2Byte e j).extractLsb' (6 - 2 * k) 2 = (elemOr0 e (4 * j + k)).setWidth 2 := by
  ext i hi
  obtain ⟨hvalue, hbit⟩ : 3 - (6 - 2 * k + i) / 2 = k ∧ (6 - 2 * k + i) % 2 = i := by omega
  rw [BitVec.getElem_extractLsb', BitVec.getElem_setWidth, getLsbD_pack2Byte he j (by omega),
    hvalue, hbit]

/-- Settles O48: `getLsbD_pack1Byte` at bit 7-k. -/
theorem packOneBitPositions : Obligations.PackOneBitPositions := by
  intro e he
  have hle : ∀ x ∈ e, x.toNat ≤ 1 := fun x hx => by
    rcases he x hx with rfl | rfl <;> decide
  obtain ⟨hlt, hge⟩ := ceilDiv_bounds e.length (m := 8) (by decide)
  rw [← length_pack1] at hlt hge
  refine ⟨hlt, hge, fun j k hj hk => ?_⟩
  rw [getD_pack1 hj, getLsbD_pack1Byte hle j (by omega), show 7 - (7 - k) = k by omega, elemOr0]
  split
  · next hi =>
    rw [List.getD_eq_getElem _ _ hi]
    rcases he _ (List.getElem_mem hi) with hx | hx <;> rw [hx] <;> simp [hi]
  · next hi => simp [hi]

/-- Settles O49: `extractLsb'_pack2Byte`, a value of two bits losing nothing in its field. -/
theorem packTwoFieldPositions : Obligations.PackTwoFieldPositions := by
  intro e he
  obtain ⟨hlt, hge⟩ := ceilDiv_bounds e.length (m := 4) (by decide)
  rw [← length_pack2] at hlt hge
  refine ⟨hlt, hge, fun j k hj hk => ?_⟩
  have hval : (elemOr0 e (4 * j + k)).toNat < 2 ^ 2 := Nat.lt_succ_of_le (toNat_elemOr0_le he _)
  rw [getD_pack2 hj, extractLsb'_pack2Byte he j hk, BitVec.toNat_setWidth, Nat.mod_eq_of_lt hval,
    elemOr0, apply_ite BitVec.toNat]
  rfl

/-! Unpacking. -/

/-- A shifted byte masked with 1 is the one bit. -/
theorem ushiftRight_and_one (x : Byte) (a : Nat) :
    (x >>> a) &&& 1 = if x.getLsbD a then 1 else 0 := by
  ext i hi
  cases i with
  | zero => cases h : x.getLsbD a <;> simp [h]
  | succ i => split <;> simp

/-- A shifted byte masked with 3 is the two-bit field. -/
theorem ushiftRight_and_three (x : Byte) (a : Nat) :
    (x >>> a) &&& 3 = (x.extractLsb' a 2).setWidth 8 := by
  ext i hi
  interval_cases i <;> simp

theorem unpack1Elem_eq (p : List Byte) (i : Nat) :
    unpack1Elem p i = if (p.getD (i / 8) 0).getLsbD (7 - i % 8) then 1 else 0 :=
  ushiftRight_and_one _ _

theorem unpack2Elem_eq (p : List Byte) (i : Nat) :
    unpack2Elem p i = ((p.getD (i / 4) 0).extractLsb' (6 - 2 * (i % 4)) 2).setWidth 8 :=
  ushiftRight_and_three _ _

/-- Settles O50: `unpack1Elem_eq` at each index. -/
theorem unpackOneReadsItsBits : Obligations.UnpackOneReadsItsBits := by
  refine fun p n => ⟨length_unpack1 p n, fun i hi => ?_⟩
  rw [List.getElem?_eq_getElem (by simpa using hi), getElem_unpack1, unpack1Elem_eq]

/-- Settles O51: `unpack2Elem_eq` at each index. -/
theorem unpackTwoReadsItsFields : Obligations.UnpackTwoReadsItsFields := by
  refine fun p n => ⟨length_unpack2 p n, fun i hi => ?_⟩
  rw [List.getElem?_eq_getElem (by simpa using hi), getElem_unpack2, unpack2Elem_eq]

/-! Unpacking what was packed. -/

theorem unpack1_pack1 {e : List Byte} (he : ∀ x ∈ e, x.toNat ≤ 1) :
    unpack1 (pack1 e) e.length = e := by
  refine List.ext_getElem (length_unpack1 ..) fun i _ hi => ?_
  have hj : i / 8 < (pack1 e).length := by
    rw [length_pack1, lt_ceilDiv_iff (by decide)]
    omega
  have hidx : 8 * (i / 8) + (7 - (7 - i % 8)) = i := by omega
  rw [getElem_unpack1, unpack1Elem_eq, getD_pack1 hj, getLsbD_pack1Byte he _ (by omega), hidx,
    elemOr0_of_lt hi]
  rcases eq_zero_or_one_of_toNat_le (he _ (List.getElem_mem hi)) with hx | hx <;> rw [hx] <;> rfl

theorem unpack2_pack2 {e : List Byte} (he : ∀ x ∈ e, x.toNat ≤ 3) :
    unpack2 (pack2 e) e.length = e := by
  refine List.ext_getElem (length_unpack2 ..) fun i _ hi => ?_
  have hj : i / 4 < (pack2 e).length := by
    rw [length_pack2, lt_ceilDiv_iff (by decide)]
    omega
  have hval : e[i].toNat ≤ 3 := he _ (List.getElem_mem hi)
  rw [getElem_unpack2, unpack2Elem_eq, getD_pack2 hj, extractLsb'_pack2Byte he _ (by omega),
    Nat.div_add_mod, elemOr0_of_lt hi]
  apply BitVec.eq_of_toNat_eq
  rw [BitVec.toNat_setWidth, BitVec.toNat_setWidth]
  omega

/-! Packing what was unpacked. -/

theorem toNat_le_one_of_mem_unpack1 {p : List Byte} {n : Nat} : ∀ x ∈ unpack1 p n, x.toNat ≤ 1 := by
  refine List.forall_mem_map.2 fun i _ => ?_
  rw [unpack1Elem_eq]
  split <;> decide

theorem toNat_le_three_of_mem_unpack2 {p : List Byte} {n : Nat} :
    ∀ x ∈ unpack2 p n, x.toNat ≤ 3 := by
  refine List.forall_mem_map.2 fun i _ => ?_
  rw [unpack2Elem_eq, BitVec.toNat_setWidth]
  omega

theorem getLsbD_unpack1Elem_zero (p : List Byte) (i : Nat) :
    (unpack1Elem p i).getLsbD 0 = (p.getD (i / 8) 0).getLsbD (7 - i % 8) := by
  rw [unpack1Elem_eq]
  split <;> simp_all

theorem getLsbD_unpack2Elem (p : List Byte) (i : Nat) {c : Nat} (hc : c < 2) :
    (unpack2Elem p i).getLsbD c = (p.getD (i / 4) 0).getLsbD (6 - 2 * (i % 4) + c) := by
  rw [unpack2Elem_eq, BitVec.getLsbD_setWidth, BitVec.getLsbD_extractLsb']
  simp [hc, show c < 8 by omega]

/-- Bit b of a byte of flags packed again is the bit of the byte they came from, where there is a flag for it. -/
theorem getLsbD_pack1Byte_unpack1 (p : List Byte) (n j : Nat) {b : Nat} (hb : b < 8) :
    (pack1Byte (unpack1 p n) j).getLsbD b =
      ((p.getD j 0).getLsbD b && decide (8 * (j + 1) - n ≤ b)) := by
  rw [getLsbD_pack1Byte toNat_le_one_of_mem_unpack1 j hb]
  by_cases hi : 8 * j + (7 - b) < n
  · obtain ⟨hbyte, hbit⟩ : (8 * j + (7 - b)) / 8 = j ∧ 7 - (8 * j + (7 - b)) % 8 = b := by omega
    rw [elemOr0_of_lt (by simpa using hi), getElem_unpack1, getLsbD_unpack1Elem_zero, hbyte, hbit,
      decide_eq_true (by omega), Bool.and_true]
  · rw [elemOr0, if_neg (by simpa using hi), decide_eq_false (by omega), Bool.and_false]
    rfl

/-- Bit b of a byte of two-bit values packed again, likewise. -/
theorem getLsbD_pack2Byte_unpack2 (p : List Byte) (n j : Nat) {b : Nat} (hb : b < 8) :
    (pack2Byte (unpack2 p n) j).getLsbD b =
      ((p.getD j 0).getLsbD b && decide (2 * (4 * (j + 1) - n) ≤ b)) := by
  rw [getLsbD_pack2Byte toNat_le_three_of_mem_unpack2 j hb]
  by_cases hi : 4 * j + (3 - b / 2) < n
  · obtain ⟨hbyte, hbit⟩ : (4 * j + (3 - b / 2)) / 4 = j ∧
        6 - 2 * ((4 * j + (3 - b / 2)) % 4) + b % 2 = b := by omega
    rw [elemOr0_of_lt (by simpa using hi), getElem_unpack2, getLsbD_unpack2Elem _ _ (by omega),
      hbyte, hbit, decide_eq_true (by omega), Bool.and_true]
  · rw [elemOr0, if_neg (by simpa using hi), decide_eq_false (by omega), Bool.and_false]
    exact BitVec.getLsbD_zero

/-- Clearing the `k` low bits of a byte (R114, second half); the mask is a number, shifted before it is cut to a byte. -/
theorem eq_and_ones_shiftLeft {x y : Byte} {k : Nat}
    (h : ∀ b, b < 8 → x.getLsbD b = (y.getLsbD b && decide (k ≤ b))) :
    x = y &&& (0xFF <<< k) := by
  refine BitVec.eq_of_getLsbD_eq fun b hb => ?_
  have hones : Nat.testBit 255 (b - k) = true := by
    rw [show 255 = 2 ^ 8 - 1 from rfl, Nat.testBit_two_pow_sub_one, decide_eq_true (by omega)]
  rw [h b hb, BitVec.getLsbD_and, BitVec.natCast_eq_ofNat, BitVec.getLsbD_ofNat,
    Nat.testBit_shiftLeft, hones]
  simp [hb]

/-- Settles O52: element by element one way, bit by bit the other. -/
theorem unpackInvertsPack : Obligations.UnpackInvertsPack := by
  refine ⟨fun e he => unpack1_pack1 he, fun e he => unpack2_pack2 he, fun p n hp => ?_,
    fun p n hp => ?_⟩
  · have hlen : (pack1 (unpack1 p n)).length = p.length := by
      rw [length_pack1, length_unpack1, hp]
    refine ⟨hlen, fun j hj => ?_⟩
    rw [getD_pack1 (hlen.symm ▸ hj)]
    exact eq_and_ones_shiftLeft fun b hb => getLsbD_pack1Byte_unpack1 p n j hb
  · have hlen : (pack2 (unpack2 p n)).length = p.length := by
      rw [length_pack2, length_unpack2, hp]
    refine ⟨hlen, fun j hj => ?_⟩
    rw [getD_pack2 (hlen.symm ▸ hj)]
    exact eq_and_ones_shiftLeft fun b hb => getLsbD_pack2Byte_unpack2 p n j hb

end Sys2Proof.Machine
end

section
/-! SUPPORT. PACK1, PACK2, UNPACK1 and UNPACK2 (41_bit_packer.md R115 to R118): their errors in the order of
60_exceptions.md R243, and what a delivered output leaves at DST. -/

namespace Sys2Proof.Machine

open Sys2Proof

/-! The checks, one after the other. -/

section
variable {per : Nat} {src : Word64} {n : Nat} {s : State}

section
variable {top : Byte} {pack : List Byte → List Byte}

theorem packChecked_notReady (hd : s.dstV = false) :
    packChecked per top pack src n s = .error .notReady := by
  simp only [packChecked, State.packReady, hd, if_true]

theorem packChecked_accessFault (hd : s.dstV = true)
    (hr : rangeOK s.platform src.toNat n = false ∨
      rangeOK s.platform s.dst.toNat (ceilDiv n per) = false) :
    packChecked per top pack src n s = .error .accessFault := by
  simp only [packChecked, State.packReady, hd, Bool.true_eq_false, if_false]
  split
  · rfl
  · next hsrc => rw [if_pos (hr.resolve_left hsrc)]

/-- One element above `top` is enough. -/
theorem packChecked_badElement (hd : s.dstV = true) (hsrc : rangeOK s.platform src.toNat n = true)
    (hdst : rangeOK s.platform s.dst.toNat (ceilDiv n per) = true)
    (he : ∃ i, i < n ∧ top.toNat < (s.mem.read (src.toNat + i)).toNat) :
    packChecked per top pack src n s = .error .badElement := by
  obtain ⟨i, hi, htop⟩ := he
  have hall : (s.mem.readBytes src.toNat n).all (fun x => decide (x ≤ top)) = false :=
    List.all_eq_false.2 ⟨s.mem.read (src.toNat + i),
      List.mem_map_of_mem (List.mem_range.2 hi), by simpa using BitVec.lt_def.2 htop⟩
  simp only [packChecked, State.packReady, hd, hsrc, hdst, hall, Bool.true_eq_false,
    Bool.false_eq_true, if_false]

end

section
variable {unpack : List Byte → Nat → List Byte}

theorem unpackChecked_notReady (hd : s.dstV = false) :
    unpackChecked per unpack src n s = .error .notReady := by
  simp only [unpackChecked, State.packReady, hd, if_true]

theorem unpackChecked_accessFault (hd : s.dstV = true)
    (hr : rangeOK s.platform src.toNat (ceilDiv n per) = false ∨
      rangeOK s.platform s.dst.toNat n = false) :
    unpackChecked per unpack src n s = .error .accessFault := by
  simp only [unpackChecked, State.packReady, hd, Bool.true_eq_false, if_false]
  split
  · rfl
  · next hsrc => rw [if_pos (hr.resolve_left hsrc)]

end

end

/-! What the commands answer. -/

/-- Output that fits at DST is stored there, and its bytes are counted. -/
theorem deliver_ok_stores {s : State} {r : Except Status (List Byte)} {out : List Byte} {m : Nat}
    (hwf : s.mem.wf = true) (hdst : rangeOK s.platform s.dst.toNat m = true)
    (hlen : out.length = m) (hr : r = .ok out) :
    ∃ t, (.next (s.deliver r) : Host.Outcome State Fault Refusal) = .next t ∧
      StoredOnly s t out ∧ t.responses = s.responses ++ [⟨.ok, BitVec.ofNat 64 m⟩] := by
  subst hlen hr
  have hfit := fits_of_rangeOK (toNat_lt_memorySize s.dst) hdst
  exact ⟨_, rfl, ⟨fun _ hj => Memory.read_writeBytes_inside hwf hfit hj,
    fun _ hx => Memory.read_writeBytes_outside _ _ hx, rfl⟩, rfl⟩

/-- An error is answered with value 0, and nothing else changes (60_exceptions.md R244). -/
theorem deliver_error_answers {s : State} {r : Except Status (List Byte)} {e : Status}
    (hr : r = .error e) :
    (.next (s.deliver r) : Host.Outcome State Fault Refusal) =
      .next { s with responses := s.responses ++ [⟨e, 0⟩] } := by
  subst hr
  rfl

/-- Settles O44: PACK1 delivers what `packChecked` gives. -/
theorem packOneStoresPackedFlags : Obligations.PackOneStoresPackedFlags :=
  ⟨decode_opCode .pack1, fun _ _ _ =>
    ⟨fun hwf hd hsrc hdst he => deliver_ok_stores hwf hdst (by rw [length_pack1, Memory.length_readBytes])
        (packChecked_eq_ok.2 ⟨hd, hsrc, hdst, he, rfl⟩),
      fun hd => deliver_error_answers (packChecked_notReady hd),
      fun hd hr => deliver_error_answers (packChecked_accessFault hd hr),
      fun hd hsrc hdst he => deliver_error_answers (packChecked_badElement hd hsrc hdst he)⟩⟩

/-- Settles O45: PACK2 delivers what `packChecked` gives. -/
theorem packTwoStoresPackedValues : Obligations.PackTwoStoresPackedValues :=
  ⟨decode_opCode .pack2, fun _ _ _ =>
    ⟨fun hwf hd hsrc hdst he => deliver_ok_stores hwf hdst (by rw [length_pack2, Memory.length_readBytes])
        (packChecked_eq_ok.2 ⟨hd, hsrc, hdst, he, rfl⟩),
      fun hd => deliver_error_answers (packChecked_notReady hd),
      fun hd hr => deliver_error_answers (packChecked_accessFault hd hr),
      fun hd hsrc hdst he => deliver_error_answers (packChecked_badElement hd hsrc hdst he)⟩⟩

/-- Settles O46: UNPACK1 delivers what `unpackChecked` gives. -/
theorem unpackOneStoresFlags : Obligations.UnpackOneStoresFlags :=
  ⟨decode_opCode .unpack1, fun _ _ _ =>
    ⟨fun hwf hd hsrc hdst => deliver_ok_stores hwf hdst (length_unpack1 ..)
        (unpackChecked_eq_ok.2 ⟨hd, hsrc, hdst, rfl⟩),
      fun hd => deliver_error_answers (unpackChecked_notReady hd),
      fun hd hr => deliver_error_answers (unpackChecked_accessFault hd hr)⟩⟩

/-- Settles O47: UNPACK2 delivers what `unpackChecked` gives. -/
theorem unpackTwoStoresValues : Obligations.UnpackTwoStoresValues :=
  ⟨decode_opCode .unpack2, fun _ _ _ =>
    ⟨fun hwf hd hsrc hdst => deliver_ok_stores hwf hdst (length_unpack2 ..)
        (unpackChecked_eq_ok.2 ⟨hd, hsrc, hdst, rfl⟩),
      fun hd => deliver_error_answers (unpackChecked_notReady hd),
      fun hd hr => deliver_error_answers (unpackChecked_accessFault hd hr)⟩⟩

end Sys2Proof.Machine
end

section
/-! SUPPORT. The planner (42_precision_truncator.md): its exponents as numbers, its length as one clamp, and the
widths of a length. -/

namespace Sys2Proof.Machine

open Sys2Proof

/-! Exponents (R141 to R144). -/

theorem expField32_eq (r : Word32) : expField32 r = r.toNat / 2 ^ 23 % 2 ^ 8 := by
  rw [expField32, BitVec.extractLsb'_toNat, Nat.shiftRight_eq_div_pow]

theorem expField64_eq (e : Word64) : expField64 e = e.toNat / 2 ^ 52 % 2 ^ 11 := by
  rw [expField64, BitVec.extractLsb'_toNat, Nat.shiftRight_eq_div_pow]

theorem exp32_of_extractLsb' {r : Word32} {f : BitVec 8} (h : r.extractLsb' 23 8 = f) :
    exp32 r = (f.toNat : Int) - 127 := by
  subst h
  rfl

theorem exp64_of_extractLsb' {e : Word64} {f : BitVec 11} (h : e.extractLsb' 52 11 = f) :
    exp64 e = (f.toNat : Int) - 1023 := by
  subst h
  rfl

theorem exp32_range (r : Word32) : -127 ≤ exp32 r ∧ exp32 r ≤ 128 := by
  have hf := (r.extractLsb' 23 8).isLt
  rw [exp32_of_extractLsb' rfl]
  omega

theorem exp64_range (e : Word64) : -1023 ≤ exp64 e ∧ exp64 e ≤ 1024 := by
  have hf := (e.extractLsb' 52 11).isLt
  rw [exp64_of_extractLsb' rfl]
  omega

/-- The sign is not read (R141). -/
theorem exp32_xor_signBit (r : Word32) : exp32 (r ^^^ 0x80000000) = exp32 r := by
  have hsign : (0x80000000 : Word32).extractLsb' 23 8 = 0#8 := by decide
  rw [exp32, expField32, BitVec.extractLsb'_xor, hsign, BitVec.xor_zero]
  rfl

/-- The sign is not read (R143). -/
theorem exp64_xor_signBit (e : Word64) : exp64 (e ^^^ 0x8000000000000000) = exp64 e := by
  have hsign : (0x8000000000000000 : Word64).extractLsb' 52 11 = 0#11 := by decide
  rw [exp64, expField64, BitVec.extractLsb'_xor, hsign, BitVec.xor_zero]
  rfl

/-- Settles O24: each exponent is its field, less the bias. -/
theorem exponentsOfEveryPattern : Obligations.ExponentsOfEveryPattern := by
  constructor
  · intro r
    obtain ⟨hlo, hhi⟩ := exp32_range r
    exact ⟨by rw [← expField32_eq]; rfl, hlo, hhi, exp32_of_extractLsb', exp32_of_extractLsb'⟩
  · intro e
    obtain ⟨hlo, hhi⟩ := exp64_range e
    exact ⟨by rw [← expField64_eq]; rfl, hlo, hhi, exp64_of_extractLsb', exp64_of_extractLsb'⟩

/-! The required bit length (R145). -/

theorem rawLength_eq (eb : Word64) (rad : Word32) :
    rawLength eb rad = 10 + exp32 rad - exp64 eb := by
  simp only [rawLength, Config.planBase, Config.planIncrement]
  omega

theorem plan_saturated {eb : Word64} {rad : Word32} (med : Word32) (h : 32 < rawLength eb rad) :
    plan eb rad med = ⟨32, 0⟩ := by
  rw [plan_eq, if_pos h]

theorem plan_unsaturated {eb : Word64} {rad : Word32} (med : Word32) (h : rawLength eb rad ≤ 32) :
    plan eb rad med = ⟨(max 9 (rawLength eb rad)).toNat, med⟩ := by
  rw [plan_eq, if_neg (not_lt.2 h)]

theorem plan_floored {eb : Word64} {rad : Word32} (med : Word32) (h : rawLength eb rad ≤ 9) :
    plan eb rad med = ⟨9, med⟩ := by
  rw [plan_unsaturated med (by omega), max_eq_left h]
  rfl

theorem plan_unclamped {eb : Word64} {rad : Word32} (med : Word32) (hlo : 9 ≤ rawLength eb rad)
    (hhi : rawLength eb rad ≤ 32) : plan eb rad med = ⟨(rawLength eb rad).toNat, med⟩ := by
  rw [plan_unsaturated med hhi, max_eq_right hlo]

/-- The length alone is the raw length clamped to 9..32. -/
theorem reqLength_eq (eb : Word64) (rad med : Word32) :
    (plan eb rad med).reqLength = (min 32 (max 9 (rawLength eb rad))).toNat := by
  by_cases h : 32 < rawLength eb rad
  · rw [plan_saturated med h, min_eq_left (by omega)]
    rfl
  · rw [plan_unsaturated med (not_lt.1 h), min_eq_right (by omega)]

/-- Settles O25: one clause for each side of the two clamps. -/
theorem planClampsLength : Obligations.PlanClampsLength := by
  intro eb rad med
  refine ⟨fun h => plan_floored med h.le, fun hlo hhi => ?_, fun h => plan_saturated med h⟩
  rw [plan_unclamped med hlo hhi]
  exact ⟨Int.toNat_of_nonneg (le_trans (by decide) hlo), rfl⟩

/-- Settles O28: each row fixes an exponent, and so the raw length up to the other one. -/
theorem plannerCornerCases : Obligations.PlannerCornerCases := by
  intro eb rad med
  have hraw := rawLength_eq eb rad
  have hr := exp32_range rad
  refine ⟨?_, ?_, fun he => ?_, fun he => ?_, fun hf => ?_, fun hf => ?_, fun h => ?_⟩
  · simp only [plan_eq, rawLength_eq, exp64_xor_signBit]
  · simp only [plan_eq, rawLength_eq, exp32_xor_signBit]
  · have hexp : exp64 eb = -1023 := exp64_of_extractLsb' he
    exact plan_saturated med (by omega)
  · have hexp : exp64 eb = 1024 := exp64_of_extractLsb' he
    exact plan_floored med (by omega)
  · have hexp : exp32 rad = -127 := exp32_of_extractLsb' hf
    rw [plan_eq, hraw, hexp]
    rfl
  · have hexp : exp32 rad = 128 := exp32_of_extractLsb' hf
    have hraw' : rawLength eb rad = 138 - exp64 eb := by omega
    refine ⟨fun h => plan_saturated med (by omega), fun h => ?_⟩
    rw [plan_unsaturated med (by omega), hraw']
  · rw [plan_unclamped med (by omega) (by omega), hraw, h]
    rfl

/-! The widths of a length (R146). -/

theorem reqBytes_eq (rl : Nat) : reqBytes rl = (rl + 7) / 8 := rfl

theorem reqBytes_le_four {rl : Nat} (h : rl ≤ 32) : reqBytes rl ≤ 4 := by
  rw [reqBytes_eq]
  omega

theorem reqBytes_eq_four_iff {rl : Nat} (h : rl ≤ 32) : reqBytes rl = 4 ↔ 25 ≤ rl := by
  rw [reqBytes_eq]
  omega

/-- The bits the shift adds fill the last byte kept (R146). -/
theorem add_shiftBits (rl : Nat) : rl + shiftBits rl = 8 * reqBytes rl := by
  rw [shiftBits, reqBytes_eq]
  split <;> omega

theorem shiftBits_le (rl : Nat) : shiftBits rl ≤ 7 := by
  rw [shiftBits]
  split <;> omega

/-- The lengths above `8 * k` that `k + 1` bytes hold (R147). -/
theorem widths_of_range {k rl : Nat} (hlo : 8 * k < rl) (hhi : rl ≤ 8 * (k + 1)) :
    reqBytes rl = k + 1 ∧ shiftBits rl = 8 * (k + 1) - rl := by
  have hsum := add_shiftBits rl
  rw [reqBytes_eq] at hsum ⊢
  omega

/-- Settles O26: a row of the table is the range of one byte count. -/
theorem widthsOfEveryLength : Obligations.WidthsOfEveryLength :=
  ⟨fun rl => ⟨add_shiftBits rl, shiftBits_le rl⟩, fun _ => widths_of_range (k := 1),
    fun _ => widths_of_range (k := 2), fun _ => widths_of_range (k := 3)⟩

end Sys2Proof.Machine
end

section
/-! SUPPORT. The required bit length is monotone (42_precision_truncator.md R151): the exponent field of a pattern grows
with its magnitude, and the clamps keep the order. -/

namespace Sys2Proof.Machine

open Sys2Proof

/-- The value of a pattern with `p` fraction bits, exponent field `e` and fraction `f`, without its sign and in units
of the least subnormal. -/
def fieldsMagnitude (p e f : Nat) : Nat := if e = 0 then f else (2 ^ p + f) * 2 ^ (e - 1)

theorem magnitude32_eq (x : Word32) :
    magnitude32 x = fieldsMagnitude 23 (expField32 x) (fracField32 x) := rfl

theorem magnitude64_eq (x : Word64) :
    magnitude64 x = fieldsMagnitude 52 (expField64 x) (fracField64 x) := rfl

/-- Below the least magnitude of the exponent field after `e`. -/
theorem fieldsMagnitude_lt {p f : Nat} (e : Nat) (hf : f < 2 ^ p) :
    fieldsMagnitude p e f < 2 ^ (p + e) := by
  cases e with
  | zero => exact hf
  | succ e =>
    calc (2 ^ p + f) * 2 ^ e
      _ < 2 ^ (p + 1) * 2 ^ e := by gcongr; omega
      _ = 2 ^ (p + (e + 1)) := by ring

/-- A normal magnitude is at least that of its exponent field with a zero fraction. -/
theorem le_fieldsMagnitude_succ (p e f : Nat) : 2 ^ (p + e) ≤ fieldsMagnitude p (e + 1) f := by
  calc 2 ^ (p + e)
    _ = 2 ^ p * 2 ^ e := pow_add 2 p e
    _ ≤ (2 ^ p + f) * 2 ^ e := by gcongr; omega

/-- A pattern of no larger magnitude has no larger exponent field. -/
theorem expField_le_of_fieldsMagnitude_le {p e₁ e₂ f₁ f₂ : Nat} (hf : f₂ < 2 ^ p)
    (h : fieldsMagnitude p e₁ f₁ ≤ fieldsMagnitude p e₂ f₂) : e₁ ≤ e₂ := by
  by_contra hlt
  obtain ⟨e, rfl⟩ : ∃ e, e₁ = e + 1 := ⟨e₁ - 1, by omega⟩
  have hpow : 2 ^ (p + e₂) ≤ 2 ^ (p + e) := Nat.pow_le_pow_right two_pos (by omega)
  have hlow := le_fieldsMagnitude_succ p e f₁
  have hhigh := fieldsMagnitude_lt e₂ hf
  omega

theorem exp32_mono {r₁ r₂ : Word32} (h : magnitude32 r₁ ≤ magnitude32 r₂) : exp32 r₁ ≤ exp32 r₂ := by
  rw [magnitude32_eq, magnitude32_eq] at h
  have hfield := expField_le_of_fieldsMagnitude_le (r₂.extractLsb' 0 23).isLt h
  exact Int.sub_le_sub_right (Int.ofNat_le.2 hfield) _

theorem exp64_mono {e₁ e₂ : Word64} (h : magnitude64 e₁ ≤ magnitude64 e₂) : exp64 e₁ ≤ exp64 e₂ := by
  rw [magnitude64_eq, magnitude64_eq] at h
  have hfield := expField_le_of_fieldsMagnitude_le (e₂.extractLsb' 0 52).isLt h
  exact Int.sub_le_sub_right (Int.ofNat_le.2 hfield) _

/-- The clamps are monotone. -/
theorem reqLength_mono {eb₁ eb₂ : Word64} {rad₁ rad₂ : Word32} (med : Word32)
    (h : rawLength eb₁ rad₁ ≤ rawLength eb₂ rad₂) :
    (plan eb₁ rad₁ med).reqLength ≤ (plan eb₂ rad₂ med).reqLength := by
  rw [reqLength_eq, reqLength_eq]
  exact Int.toNat_le_toNat (min_le_min_left _ (max_le_max_left _ h))

/-- Settles O29. The bit formulas order NaN patterns, too, so the premises that there is none are not used. -/
theorem precisionIsMonotone : Obligations.PrecisionIsMonotone := by
  constructor
  · intro e₁ e₂ rad med _ _ h
    have hexp := exp64_mono h
    exact reqLength_mono med (by rw [rawLength_eq, rawLength_eq]; omega)
  · intro eb r₁ r₂ med _ _ h
    have hexp := exp32_mono h
    exact reqLength_mono med (by rw [rawLength_eq, rawLength_eq]; omega)

end Sys2Proof.Machine
end

section
/-! SUPPORT. PLAN (42_precision_truncator.md R148): the fields of its response. -/

namespace Sys2Proof.Machine

open Sys2Proof

theorem execPlan_of_ready {s : State} (h : s.planReady = true) :
    execPlan s = .next (s.respond (planValue s.planned)) := by
  simp [execPlan, h]

theorem execPlan_of_not_ready {s : State} (h : s.planReady = false) :
    execPlan s = .next (s.raise .notReady) := by
  simp [execPlan, h]

/-- The four fields of the response do not overlap, so their OR is a sum (R148). -/
theorem toNat_planValue {p : PlanResult} (h : p.reqLength ≤ 32) :
    (planValue p).toNat = 2 ^ 32 * p.effMedian.toNat +
      (2 ^ 16 * shiftBits p.reqLength + (2 ^ 8 * reqBytes p.reqLength + p.reqLength)) := by
  have hmed := p.effMedian.isLt
  have hshift := shiftBits_le p.reqLength
  have hrb := reqBytes_le_four h
  rw [Nat.two_pow_add_eq_or_of_lt (by omega), Nat.two_pow_add_eq_or_of_lt (by omega),
    Nat.two_pow_add_eq_or_of_lt (by omega)]
  simp only [planValue, BitVec.toNat_or, BitVec.toNat_shiftLeft, BitVec.toNat_setWidth,
    BitVec.toNat_ofNat, Nat.shiftLeft_eq, Nat.or_assoc, mul_comm (2 ^ _)]
  simp (disch := omega) only [Nat.mod_eq_of_lt]

/-- Each field of the response holds its part of the plan (R148). -/
theorem planValue_fields {p : PlanResult} (h : p.reqLength ≤ 32) :
    ((planValue p).extractLsb' 0 8).toNat = p.reqLength ∧
    ((planValue p).extractLsb' 8 8).toNat = reqBytes p.reqLength ∧
    ((planValue p).extractLsb' 16 8).toNat = shiftBits p.reqLength ∧
    (planValue p).extractLsb' 24 8 = 0 ∧
    (planValue p).extractLsb' 32 32 = p.effMedian := by
  have hmed := p.effMedian.isLt
  have hshift := shiftBits_le p.reqLength
  have hrb := reqBytes_le_four h
  simp only [← BitVec.toNat_inj, BitVec.extractLsb'_toNat, Nat.shiftRight_eq_div_pow,
    toNat_planValue h, pow_zero, Nat.div_one, BitVec.ofNat_eq_ofNat, BitVec.toNat_ofNat,
    Nat.zero_mod]
  omega

/-- Settles O23: the two cases of `planReady`. -/
theorem planReportsWidthsAndMedian : Obligations.PlanReportsWidthsAndMedian := by
  refine ⟨decode_opCode .plan, fun s => ⟨fun hc hr => ?_, fun h => ?_⟩⟩
  · exact ⟨planValue s.planned, execPlan_of_ready (State.planReady_iff.2 ⟨hc, hr⟩),
      planValue_fields (reqLength_range ..).2⟩
  · exact execPlan_of_not_ready (Bool.and_eq_false_iff.2 h)

end Sys2Proof.Machine
end

section
/-! SUPPORT. COMPRESS under a saturated plan (42_precision_truncator.md R149). -/

namespace Sys2Proof.Machine

open Sys2Proof

/-- Only the ceiling replaces the median (R145). -/
theorem plan_eq_of_effMedian_ne {eb : Word64} {rad med : Word32}
    (h : (plan eb rad med).effMedian ≠ med) : plan eb rad med = ⟨32, 0⟩ := by
  by_cases hraw : 32 < rawLength eb rad
  · exact plan_saturated med hraw
  · rw [plan_unsaturated med (not_lt.1 hraw)] at h
    exact absurd rfl h

theorem compressOutput_unsupportedPrecision {s : State} (hready : s.compressReady = true)
    (hrb : reqBytes s.planned.reqLength = 4) :
    compressOutput s = .error .unsupportedPrecision := by
  rw [compressOutput, if_neg (by simp [hready]), if_pos hrb]

theorem execCompress_of_error {s : State} {e : Status} (h : compressOutput s = .error e) :
    execCompress s = .next (s.raise e) := by
  simp only [execCompress, h, State.deliver_error]

/-- An OK answer means that no check failed. -/
theorem compressOutput_ok_of_answer {s t : State} {v : Word64} (h : execCompress s = .next t)
    (hv : t.responses = s.responses ++ [⟨.ok, v⟩]) : compressOutput s = .ok s.encoded.out := by
  rcases execCompress_cases s with ⟨hout, -⟩ | ⟨e, herr, hexec⟩
  · exact hout
  · obtain rfl := Host.Outcome.next.inj (hexec.symm.trans h)
    obtain ⟨rfl, -⟩ : e = .ok ∧ 0 = v := by simpa using hv
    simpa using compressOutput_eq_error herr

/-- Settles O27: a saturated plan has four bytes, and a COMPRESS that answers OK has fewer. -/
theorem saturatedPlanNeverEncodes : Obligations.SaturatedPlanNeverEncodes := by
  intro s
  obtain ⟨hlo, hhi⟩ := reqLength_range s.errBound s.radius s.median
  constructor
  · intro hmed
    have hplan := plan_eq_of_effMedian_ne hmed
    have hrb : reqBytes s.planned.reqLength = 4 := by rw [State.planned, hplan]; rfl
    exact ⟨by rw [hplan], fun hready =>
      execCompress_of_error (compressOutput_unsupportedPrecision hready hrb)⟩
  · intro t v hexec hv
    obtain ⟨-, hrb, -⟩ := compressOutput_eq_ok.1 (compressOutput_ok_of_answer hexec hv)
    have hle : (plan s.errBound s.radius s.median).reqLength < 25 :=
      not_le.1 fun h => hrb ((reqBytes_eq_four_iff hhi).2 h)
    refine ⟨hlo, Nat.le_of_lt_succ hle, ?_⟩
    by_contra hmed
    rw [plan_eq_of_effMedian_ne hmed] at hle
    exact absurd hle (by decide)

end Sys2Proof.Machine
end

section
/-! SUPPORT. Deltas and their counts (43_delta_xor_encoder.md R171 to R175, R185): the size of a delta decides its count,
the XOR chain an element at a time, and the bytes a count leaves to be stored. -/

namespace Sys2Proof.Machine

open Sys2Proof

/-! Counts (R174). -/

/-- The bits from `k` up are zero exactly in the values below `2 ^ k`. -/
theorem extractLsb'_eq_zero_iff (d : Word32) {k n : Nat} (hn : k + n = 32) :
    d.extractLsb' k n = 0 ↔ d.toNat < 2 ^ k := by
  have hfit : d.toNat / 2 ^ k < 2 ^ n :=
    Nat.div_lt_of_lt_mul (by rw [← pow_add, hn]; exact d.isLt)
  rw [← BitVec.toNat_inj, BitVec.extractLsb'_toNat, Nat.shiftRight_eq_div_pow,
    Nat.mod_eq_of_lt hfit]
  exact Nat.div_eq_zero_iff_lt (by positivity)

theorem leadingBytes_eq (d : Word32) :
    leadingBytes d =
      if d.toNat < 2 ^ 8 then 3 else if d.toNat < 2 ^ 16 then 2
      else if d.toNat < 2 ^ 24 then 1 else 0 := by
  simp only [leadingBytes, extractLsb'_eq_zero_iff d (show 8 + 24 = 32 from rfl),
    extractLsb'_eq_zero_iff d (show 16 + 16 = 32 from rfl),
    extractLsb'_eq_zero_iff d (show 24 + 8 = 32 from rfl)]

theorem leadingBytes_of_le {d : Word32} (h : 2 ^ 16 ≤ d.toNat) :
    leadingBytes d = if d.toNat < 2 ^ 24 then 1 else 0 := by
  rw [leadingBytes_eq, if_neg (by omega), if_neg (by omega)]

/-- Settles O31: the tests of `leadingBytes_eq` in their order. -/
theorem leadingBytesByMagnitude : Obligations.LeadingBytesByMagnitude := by
  intro d
  refine ⟨fun h => ?_, fun h8 h16 => ?_, fun h16 h24 => ?_, fun h24 => ?_⟩
  · rw [leadingBytes_eq, if_pos h]
  · rw [leadingBytes_eq, if_neg (by omega), if_pos h16]
  · rw [leadingBytes_of_le h16, if_pos h24]
  · rw [leadingBytes_of_le (by omega), if_neg (by omega)]

/-- A count of `k` or more says that the top `k` bytes of the delta are zero. -/
theorem le_leadingBytes_iff (d : Word32) {k : Nat} (hk : k ≤ 3) :
    k ≤ (leadingBytes d).toNat ↔ d.toNat < 2 ^ (32 - 8 * k) := by
  have hd := d.isLt
  rw [leadingBytes_eq]
  interval_cases k <;> split_ifs <;> simp <;> omega

/-! The XOR chain (R173). -/

theorem getElem_xorDeltas (prev : Word32) (ts : List Word32) (i : Nat)
    (hi : i < (xorDeltas prev ts).length) :
    (xorDeltas prev ts)[i] =
      ts[i]'(by simpa using hi) ^^^ (if i = 0 then prev else ts.getD (i - 1) 0) := by
  induction ts generalizing prev i with
  | nil => simp at hi
  | cons t ts ih =>
    cases i with
    | zero => rfl
    | succ i =>
      simp only [xorDeltas, List.getElem_cons_succ, ih]
      cases i <;> rfl

/-- Settles O33, from `getElem_xorDeltas`; a shift to the right leaves the top bits zero. -/
theorem countsFollowXorChain : Obligations.CountsFollowXorChain := by
  intro xs med eb rad
  refine ⟨length_encodePlanned_counts _ xs, fun i hi => ?_, fun x => ?_⟩
  · rw [List.getElem?_eq_getElem (by simpa [encodeBlock] using hi)]
    simp only [encodeBlock, encodePlanned, List.getElem_map, getElem_xorDeltas]
    split
    · rfl
    · next h0 =>
      rw [List.getD_eq_getElem _ _ (by simp; omega), List.getD_eq_getElem _ _ (by omega),
        List.getElem_map]
      rfl
  · have hshift := shiftBits_le (plan eb rad med).reqLength
    exact BitVec.toNat_ushiftRight_lt _ _ (by omega)

/-! Stored bytes (R175). -/

/-- Settles O32: the eight closed cases of `selectedIndices`. -/
theorem storedBytesFollowTable : Obligations.StoredBytesFollowTable :=
  fun _ => ⟨rfl, rfl, rfl, rfl, rfl, rfl, rfl, rfl⟩

/-- A count that covers the kept bytes leaves none to store. -/
theorem storedBytes_eq_nil {rb : Nat} (hrb : rb ≤ 4) (t : Word32) {l : BitVec 2} (h : rb ≤ l.toNat) :
    storedBytes rb t l = [] :=
  List.eq_nil_of_length_eq_zero (by rw [length_storedBytes rb hrb]; omega)

/-! Bytes that are never stored (R185). -/

/-- Byte 0 is not read. -/
theorem leadingBytes_and_ffffff00 (d : Word32) : leadingBytes (d &&& 0xFFFFFF00) = leadingBytes d := by
  have h8 : (0xFFFFFF00 : Word32).extractLsb' 8 24 = BitVec.allOnes 24 := by decide
  have h16 : (0xFFFFFF00 : Word32).extractLsb' 16 16 = BitVec.allOnes 16 := by decide
  have h24 : (0xFFFFFF00 : Word32).extractLsb' 24 8 = BitVec.allOnes 8 := by decide
  simp only [leadingBytes, BitVec.extractLsb'_and, h8, h16, h24, BitVec.and_allOnes]

theorem toNat_div_eq_of_upper_eq {d d' : Word32} (h : d.extractLsb' 16 16 = d'.extractLsb' 16 16) :
    d.toNat / 2 ^ 16 = d'.toNat / 2 ^ 16 := by
  have hnat := congrArg BitVec.toNat h
  simp only [BitVec.extractLsb'_toNat, Nat.shiftRight_eq_div_pow] at hnat
  omega

/-- An upper half that is not zero decides the count alone. -/
theorem leadingBytes_eq_of_upper_eq {d d' : Word32} (h : d.extractLsb' 16 16 = d'.extractLsb' 16 16)
    (hd : 2 ^ 16 ≤ d.toNat) : leadingBytes d = leadingBytes d' := by
  have hdiv := toNat_div_eq_of_upper_eq h
  rw [leadingBytes_of_le hd, leadingBytes_of_le (by omega)]
  exact if_congr (by omega) rfl rfl

/-- An upper half that is zero gives a count that covers two kept bytes. -/
theorem two_le_leadingBytes {d : Word32} (hd : d.toNat < 2 ^ 16) : 2 ≤ (leadingBytes d).toNat :=
  (le_leadingBytes_iff d (by decide)).2 hd

/-- Settles O37: the two cases of the upper half. -/
theorem lowBytesOnlyReachCounts : Obligations.LowBytesOnlyReachCounts := by
  refine ⟨leadingBytes_and_ffffff00, fun d d' t hupper => ?_⟩
  by_cases hd : d.toNat < 2 ^ 16
  · have hdiv := toNat_div_eq_of_upper_eq hupper
    have hcover := two_le_leadingBytes hd
    have hcover' := two_le_leadingBytes (d := d') (by omega)
    have hnil := storedBytes_eq_nil (by decide) t hcover
    exact ⟨hnil.trans (storedBytes_eq_nil (by decide) t hcover').symm,
      fun _ => ⟨hcover, hcover', hnil⟩⟩
  · have hcount := leadingBytes_eq_of_upper_eq hupper (not_lt.1 hd)
    exact ⟨by rw [hcount], fun hne => absurd hcount hne⟩

end Sys2Proof.Machine
end

section
/-! SUPPORT. The output of the encoding (43_delta_xor_encoder.md R176 to R178, R183): its four parts and its size. -/

namespace Sys2Proof.Machine

open Sys2Proof

/-! The residual stream (R176). -/

theorem residualStream_eq_flatMap (rb : Nat) (ts : List Word32) (ls : List (BitVec 2)) :
    residualStream rb ts ls = (ts.zip ls).flatMap fun tl => storedBytes rb tl.1 tl.2 := by
  induction ts generalizing ls with
  | nil => rfl
  | cons t ts ih =>
    cases ls with
    | nil => rfl
    | cons l ls => rw [residualStream, ih, List.zip_cons_cons, List.flatMap_cons]

theorem length_residualStream {rb : Nat} (hrb : rb ≤ 4) {ts : List Word32} {ls : List (BitVec 2)}
    (hlen : ts.length = ls.length) :
    (residualStream rb ts ls).length = (ls.map fun l => rb - l.toNat).sum := by
  induction ts generalizing ls with
  | nil => rw [List.length_eq_zero_iff.1 hlen.symm]; rfl
  | cons t ts ih =>
    cases ls with
    | nil => simp at hlen
    | cons l ls =>
      rw [residualStream, List.length_append, length_storedBytes rb hrb, ih (by simpa using hlen),
        List.map_cons, List.sum_cons]

/-! The output (R178). -/

/-- The transformed values of a block under a plan (R171). -/
def transformedBlock (p : PlanResult) (xs : List Word32) : List Word32 :=
  xs.map (transform p.effMedian (shiftBits p.reqLength))

@[simp] theorem length_transformedBlock (p : PlanResult) (xs : List Word32) :
    (transformedBlock p xs).length = xs.length := List.length_map ..

section
variable (p : PlanResult) (xs : List Word32)

theorem counts_encodePlanned :
    (encodePlanned p xs).counts = (xorDeltas 0 (transformedBlock p xs)).map leadingBytes := rfl

theorem out_encodePlanned :
    (encodePlanned p xs).out =
      BitVec.ofNat 8 p.reqLength :: le32 p.effMedian ++
        (pack2 ((encodePlanned p xs).counts.map countByte) ++
          residualStream (reqBytes p.reqLength) (transformedBlock p xs) (encodePlanned p xs).counts) :=
  rfl

/-- Past the header byte and the median. -/
theorem drop_five_out :
    (encodePlanned p xs).out.drop 5 =
      pack2 ((encodePlanned p xs).counts.map countByte) ++
        residualStream (reqBytes p.reqLength) (transformedBlock p xs) (encodePlanned p xs).counts :=
  rfl

@[simp] theorem length_packedCounts :
    (pack2 ((encodePlanned p xs).counts.map countByte)).length = ceilDiv xs.length 4 := by
  rw [length_pack2, List.length_map, length_encodePlanned_counts]

theorem packedCounts_of_out :
    ((encodePlanned p xs).out.drop 5).take (ceilDiv xs.length 4) =
      pack2 ((encodePlanned p xs).counts.map countByte) := by
  rw [drop_five_out, List.take_left' (length_packedCounts p xs)]

theorem residual_of_out :
    (encodePlanned p xs).out.drop (5 + ceilDiv xs.length 4) =
      residualStream (reqBytes p.reqLength) (transformedBlock p xs) (encodePlanned p xs).counts := by
  rw [← List.drop_drop, drop_five_out, List.drop_left' (length_packedCounts p xs)]

variable {p}

theorem header_of_out (hp : p.reqLength ≤ 32) :
    ((encodePlanned p xs).out.getD 0 0).toNat = p.reqLength :=
  (BitVec.toNat_ofNat ..).trans (Nat.mod_eq_of_lt (by omega))

/-- The size is the sum of the four parts. -/
theorem length_out (hp : p.reqLength ≤ 32) :
    (encodePlanned p xs).out.length = 1 + 4 + ceilDiv xs.length 4 +
      ((encodePlanned p xs).counts.map fun l => reqBytes p.reqLength - l.toNat).sum := by
  rw [out_encodePlanned, List.length_append, List.length_cons, length_le32, List.length_append,
    length_packedCounts, length_residualStream (reqBytes_le_four hp) (by simp)]
  omega

end

/-- Settles O34, a part at a time. -/
theorem outputHasFourParts : Obligations.OutputHasFourParts := by
  intro xs med eb rad _ p e ts
  obtain ⟨-, hp⟩ := reqLength_range eb rad med
  refine ⟨congrArg some (header_of_out xs hp), fun k hk => ?_, packedCounts_of_out p xs, ?_,
    length_out xs hp⟩
  · interval_cases k <;> rfl
  · rw [← residualStream_eq_flatMap]
    exact residual_of_out p xs

/-- Each element stores at most the kept bytes (R183). -/
theorem length_out_bounds {p : PlanResult} (xs : List Word32) (hp : p.reqLength ≤ 32) :
    5 + ceilDiv xs.length 4 ≤ (encodePlanned p xs).out.length ∧
    (encodePlanned p xs).out.length ≤
      5 + ceilDiv xs.length 4 + reqBytes p.reqLength * xs.length := by
  have hsum := List.sum_le_card_nsmul
    ((encodePlanned p xs).counts.map fun l => reqBytes p.reqLength - l.toNat) (reqBytes p.reqLength)
    (List.forall_mem_map.2 fun _ _ => Nat.sub_le _ _)
  rw [List.length_map, length_encodePlanned_counts, smul_eq_mul, mul_comm] at hsum
  rw [length_out xs hp]
  omega

/-- Settles O35: a COMPRESS that succeeds keeps three bytes at most. -/
theorem outputSizeIsBounded : Obligations.OutputSizeIsBounded := by
  intro s out hout
  obtain ⟨-, hrb, -, rfl⟩ := compressOutput_eq_ok.1 hout
  obtain ⟨-, hp⟩ := reqLength_range s.errBound s.radius s.median
  obtain ⟨hlo, hhi⟩ := length_out_bounds s.block hp
  rw [length_block] at hlo hhi
  have hle : reqBytes (plan s.errBound s.radius s.median).reqLength ≤ 3 :=
    Nat.le_of_lt_succ (lt_of_le_of_ne (reqBytes_le_four hp) hrb)
  exact ⟨hlo, hhi, hhi.trans (by gcongr)⟩

end Sys2Proof.Machine
end

section
/-! SUPPORT. The structural inverse (43_delta_xor_encoder.md R186): a value is the one before it with its stored bytes put
in, since the bytes not stored are outside the mask or equal to those before. -/

namespace Sys2Proof.Machine

open Sys2Proof

/-! The bits of masks and of placed bytes. -/

theorem getLsbD_keptMask (rb : Nat) {i : Nat} (hi : i < 32) :
    (keptMask rb).getLsbD i = decide (4 ≤ rb + i / 8) := by
  rw [keptMask, BitVec.natCast_eq_ofNat, BitVec.getLsbD_ofNat, Nat.testBit_shiftLeft,
    show 0xFFFFFFFF = 2 ^ 32 - 1 from rfl, Nat.testBit_two_pow_sub_one]
  simp only [hi, decide_true, Bool.true_and, ← Bool.decide_and, decide_eq_decide]
  omega

theorem getLsbD_byteMask (k : Nat) {i : Nat} (hi : i < 32) :
    ((0xFF : Word32) <<< (8 * k)).getLsbD i = decide (i / 8 = k) := by
  rw [show (0xFF : Word32) = (BitVec.allOnes 8).setWidth 32 by decide]
  simp only [BitVec.getLsbD_shiftLeft, BitVec.getLsbD_setWidth, BitVec.getLsbD_allOnes, hi,
    decide_true, Bool.true_and, ← decide_not, ← Bool.decide_and, decide_eq_decide]
  omega

theorem getLsbD_placedByte (t : Word32) (k : Nat) {i : Nat} (hi : i < 32) :
    ((byteOf t k).setWidth 32 <<< (8 * k)).getLsbD i = (decide (i / 8 = k) && t.getLsbD i) := by
  simp only [byteOf, BitVec.getLsbD_shiftLeft, BitVec.getLsbD_setWidth, BitVec.getLsbD_extractLsb',
    hi, decide_true, Bool.true_and]
  by_cases hk : 8 * k ≤ i
  · rw [Nat.add_sub_cancel' hk, ← Bool.and_assoc, ← Bool.and_assoc, ← decide_not,
      ← Bool.decide_and, ← Bool.decide_and]
    congr 1
    rw [decide_eq_decide]
    omega
  · rw [decide_eq_true (by omega), decide_eq_false (show ¬ i / 8 = k by omega)]
    simp

/-- A byte of `t` put into `v`. -/
theorem getLsbD_replaceByte (v t : Word32) (k : Nat) {i : Nat} (hi : i < 32) :
    (replaceByte v k (byteOf t k)).getLsbD i = if i / 8 = k then t.getLsbD i else v.getLsbD i := by
  rw [replaceByte, BitVec.getLsbD_or, BitVec.getLsbD_and, BitVec.getLsbD_not, getLsbD_byteMask k hi,
    getLsbD_placedByte t k hi]
  split <;> simp [*]

/-! One value recovered. -/

/-- The bytes of `t` at the indices `ks` put into `v`. -/
theorem getLsbD_foldl_replaceByte (ks : List Nat) (v t : Word32) {i : Nat} (hi : i < 32) :
    (ks.foldl (fun v k => replaceByte v k (byteOf t k)) v).getLsbD i =
      if i / 8 ∈ ks then t.getLsbD i else v.getLsbD i := by
  induction ks generalizing v with
  | nil => rfl
  | cons k ks ih =>
    rw [List.foldl_cons, ih, getLsbD_replaceByte v t k hi]
    simp only [List.mem_cons]
    split_ifs <;> tauto

theorem mem_selectedIndices {rb n k : Nat} :
    k ∈ selectedIndices rb n ↔ k < 4 ∧ 4 ≤ rb + k ∧ k + n ≤ 3 := by
  simp [selectedIndices]

/-- A bit in the bytes that a delta's count covers is zero in the delta. -/
theorem getLsbD_eq_false_of_leadingBytes {d : Word32} {i : Nat}
    (h : 3 < i / 8 + (leadingBytes d).toNat) : d.getLsbD i = false := by
  have hl := (leadingBytes d).isLt
  have hsmall := (le_leadingBytes_iff d (by omega)).1 le_rfl
  refine Nat.testBit_lt_two_pow (hsmall.trans_le ?_)
  exact Nat.pow_le_pow_right two_pos (by omega)

/-- The stored bytes of a value put into the kept bytes of the one before give its kept bytes. -/
theorem foldl_replaceByte_eq_kept (rb : Nat) (prev t : Word32) :
    (selectedIndices rb (leadingBytes (t ^^^ prev)).toNat).foldl
      (fun v k => replaceByte v k (byteOf t k)) (prev &&& keptMask rb) = t &&& keptMask rb := by
  refine BitVec.eq_of_getLsbD_eq fun i hi => ?_
  rw [getLsbD_foldl_replaceByte _ _ _ hi, BitVec.getLsbD_and, BitVec.getLsbD_and,
    getLsbD_keptMask rb hi]
  split
  · next hsel =>
    obtain ⟨-, hkept, -⟩ := mem_selectedIndices.1 hsel
    rw [decide_eq_true hkept, Bool.and_true]
  · next hsel =>
    by_cases hkept : 4 ≤ rb + i / 8
    · have hlead : 3 < i / 8 + (leadingBytes (t ^^^ prev)).toNat :=
        not_le.1 fun hle => hsel (mem_selectedIndices.2 ⟨by omega, hkept, hle⟩)
      have hxor := getLsbD_eq_false_of_leadingBytes hlead
      have hsame : t.getLsbD i = prev.getLsbD i := by simpa using hxor
      rw [hsame]
    · rw [decide_eq_false hkept, Bool.and_false, Bool.and_false]

/-! The block recovered. -/

theorem zip_map_append {α β : Type} (f : α → β) (ks : List α) (rest : List β) :
    ks.zip (ks.map f ++ rest) = ks.map fun k => (k, f k) := by
  induction ks with
  | nil => rfl
  | cons k ks ih => simp [ih]

/-- The chain recovered, from the kept bytes of the value before on. -/
theorem recoverKept_residualStream (rb : Nat) (prev : Word32) (ts : List Word32) :
    recoverKept rb (prev &&& keptMask rb) ((xorDeltas prev ts).map leadingBytes)
      (residualStream rb ts ((xorDeltas prev ts).map leadingBytes)) = ts.map (· &&& keptMask rb) := by
  induction ts generalizing prev with
  | nil => rfl
  | cons t ts ih =>
    have hmask : prev &&& keptMask rb &&& keptMask rb = prev &&& keptMask rb := by
      rw [BitVec.and_assoc, BitVec.and_self]
    simp only [xorDeltas, List.map_cons, residualStream, recoverKept, storedBytes, zip_map_append,
      List.foldl_map, hmask, foldl_replaceByte_eq_kept]
    rw [List.drop_left' (List.length_map ..), ih]

/-- The counts read back from the packed bytes. -/
theorem unpack2_packedCounts (counts : List (BitVec 2)) :
    unpack2 (pack2 (counts.map countByte)) counts.length = counts.map countByte := by
  have hsmall : ∀ b ∈ counts.map countByte, b.toNat ≤ 3 := List.forall_mem_map.2 fun l _ => by
    rw [countByte, BitVec.toNat_setWidth]
    omega
  simpa using unpack2_pack2 hsmall

theorem setWidth_countByte (l : BitVec 2) : (countByte l).setWidth 2 = l := by
  rw [countByte, BitVec.setWidth_setWidth_of_le _ (by decide), BitVec.setWidth_eq]

theorem decodeBlock_encodePlanned {p : PlanResult} (xs : List Word32) (hp : p.reqLength ≤ 32) :
    decodeBlock (encodePlanned p xs).out xs.length =
      (transformedBlock p xs).map (· &&& keptMask (reqBytes p.reqLength)) := by
  have hcounts : (unpack2 (pack2 ((encodePlanned p xs).counts.map countByte)) xs.length).map
      (fun b => b.setWidth 2) = (encodePlanned p xs).counts := by
    rw [← length_encodePlanned_counts p xs, unpack2_packedCounts, List.map_map]
    exact List.map_id'' setWidth_countByte _
  simp only [decodeBlock, header_of_out xs hp, packedCounts_of_out, residual_of_out, hcounts]
  rw [counts_encodePlanned]
  simpa using recoverKept_residualStream (reqBytes p.reqLength) 0 (transformedBlock p xs)

/-- Settles O36: the recovered values are the transformed ones, masked. -/
theorem encodingIsInvertible : Obligations.EncodingIsInvertible := by
  intro xs med eb rad _
  obtain ⟨-, hp⟩ := reqLength_range eb rad med
  exact (decodeBlock_encodePlanned xs hp).trans (List.map_map ..)

end Sys2Proof.Machine
end

section
/-! SUPPORT. Binary32 subtraction (43_delta_xor_encoder.md R172): patterns as sign, exponent and fraction, the operands
that are not finite, and equal operands. -/

namespace Sys2Proof.Machine

open Sys2Proof

/-! Kinds of patterns. -/

theorem isNaN32_of_isFinite32 {x : Word32} (h : isFinite32 x = true) : isNaN32 x = false := by
  simp_all [isFinite32, isNaN32]

theorem isInf32_of_isFinite32 {x : Word32} (h : isFinite32 x = true) : isInf32 x = false := by
  simp_all [isFinite32, isInf32]

theorem isNaN32_of_isInf32 {x : Word32} (h : isInf32 x = true) : isNaN32 x = false := by
  simp_all [isInf32, isNaN32]

theorem fracField32_eq (x : Word32) : fracField32 x = x.toNat % 2 ^ 23 := by
  rw [fracField32, BitVec.extractLsb'_toNat, Nat.shiftRight_zero]

/-- There are two infinities. -/
theorem isInf32_iff {x : Word32} : isInf32 x = true ↔ x = 0x7F800000 ∨ x = 0xFF800000 := by
  have hx := x.isLt
  simp only [isInf32, expField32_eq, fracField32_eq, Bool.and_eq_true, decide_eq_true_eq,
    ← BitVec.toNat_inj, BitVec.ofNat_eq_ofNat, BitVec.toNat_ofNat]
  omega

/-! Subtraction by the kinds of its operands. -/

theorem fsub32_of_isNaN32 {x y : Word32} (h : isNaN32 x = true ∨ isNaN32 y = true) :
    fsub32 x y = 0x7FC00000 := by
  rw [fsub32, if_pos (by simpa using h)]
  rfl

theorem fsub32_of_isInf32_left {x y : Word32} (hx : isInf32 x = true) (hy : isFinite32 y = true) :
    fsub32 x y = x := by
  simp [fsub32, hx, isNaN32_of_isInf32 hx, isNaN32_of_isFinite32 hy, isInf32_of_isFinite32 hy]

theorem fsub32_of_isInf32_right {x y : Word32} (hx : isFinite32 x = true) (hy : isInf32 y = true) :
    fsub32 x y = y ^^^ 0x80000000 := by
  simp [fsub32, hy, isNaN32_of_isFinite32 hx, isInf32_of_isFinite32 hx, isNaN32_of_isInf32 hy]

theorem fsub32_of_isFinite32 {x y : Word32} (hx : isFinite32 x = true) (hy : isFinite32 y = true) :
    fsub32 x y = subFinite32 x y := by
  simp [fsub32, isNaN32_of_isFinite32 hx, isInf32_of_isFinite32 hx, isNaN32_of_isFinite32 hy,
    isInf32_of_isFinite32 hy]

theorem fsub32_self {x : Word32} (hx : isFinite32 x = true) (hmag : magnitude32 x ≠ 0) :
    fsub32 x x = 0 := by
  rw [fsub32_of_isFinite32 hx hx]
  simp [subFinite32, hmag, withSign32]

/-- Settles O39: the four pairs of infinities and the four of zeros are closed cases. -/
theorem subtractionSpecialCases : Obligations.SubtractionSpecialCases := by
  refine fun x y => ⟨fsub32_of_isNaN32, fsub32_of_isInf32_left, ?_, ?_, ?_, ?_, ?_, by decide,
    by decide, by decide, by decide⟩
  · rintro hx rfl
    exact fsub32_of_isInf32_right hx (by decide)
  · rintro hx rfl
    exact fsub32_of_isInf32_right hx (by decide)
  · rintro hx rfl
    rcases isInf32_iff.1 hx with rfl | rfl <;> decide
  · intro hx hy hne
    rcases isInf32_iff.1 hx with rfl | rfl <;> rcases isInf32_iff.1 hy with rfl | rfl
    · exact absurd rfl hne
    · decide
    · decide
    · exact absurd rfl hne
  · rintro hx rfl hmag
    exact fsub32_self hx hmag

end Sys2Proof.Machine
end

section
/-! SUPPORT. The rounding of binary32 subtraction (43_delta_xor_encoder.md R172, decision D12): every exact difference lies
between two neighbouring multiples of its step, no finite magnitude lies between them, and the nearer one is taken. -/

namespace Sys2Proof.Machine

open Sys2Proof

/-! A pattern written by its sign and its other bits. -/

section
variable {neg : Bool} {bits : Nat}

theorem toNat_withSign32 (h : bits < 2 ^ 31) :
    (withSign32 neg bits).toNat = (if neg then 2 ^ 31 else 0) + bits := by
  rw [withSign32, BitVec.toNat_ofNat]
  cases neg <;> simp <;> omega

theorem signBit_withSign32 (h : bits < 2 ^ 31) : signBit (withSign32 neg bits) = neg := by
  rw [signBit, ← BitVec.testBit_toNat, toNat_withSign32 h]
  have hbits := Nat.testBit_lt_two_pow h
  cases neg
  · simpa using hbits
  · rw [if_pos rfl, Nat.testBit_two_pow_add_eq, hbits]
    rfl

theorem expField32_withSign32 (h : bits < 2 ^ 31) :
    expField32 (withSign32 neg bits) = bits / 2 ^ 23 := by
  rw [expField32_eq, toNat_withSign32 h]
  split <;> omega

theorem fracField32_withSign32 (h : bits < 2 ^ 31) :
    fracField32 (withSign32 neg bits) = bits % 2 ^ 23 := by
  rw [fracField32_eq, toNat_withSign32 h]
  split <;> omega

theorem units32_withSign32 (h : bits < 2 ^ 31) :
    units32 (withSign32 neg bits) =
      if neg then -(fieldsMagnitude 23 (bits / 2 ^ 23) (bits % 2 ^ 23) : Int)
      else fieldsMagnitude 23 (bits / 2 ^ 23) (bits % 2 ^ 23) := by
  rw [units32, magnitude32_eq, signBit_withSign32 h, expField32_withSign32 h,
    fracField32_withSign32 h]

theorem isFinite32_withSign32 (h : bits ≤ infinityBits32) :
    isFinite32 (withSign32 neg bits) = true ↔ bits < infinityBits32 := by
  rw [infinityBits32] at *
  rw [isFinite32, decide_eq_true_eq, expField32_withSign32 (by omega)]
  omega

end

/-! Magnitudes. -/

/-- A significand of up to 24 bits, scaled: the exponent field and the fraction are one number, so a carry out of the
fraction doubles the scale. -/
theorem fieldsMagnitude_scaled {s m : Nat} (hm : m ≤ 2 ^ 24) (hnorm : s = 0 ∨ 2 ^ 23 ≤ m) :
    fieldsMagnitude 23 ((s * 2 ^ 23 + m) / 2 ^ 23) ((s * 2 ^ 23 + m) % 2 ^ 23) = m * 2 ^ s := by
  have hexp : (s * 2 ^ 23 + m) / 2 ^ 23 = s + m / 2 ^ 23 := by omega
  have hfrac : (s * 2 ^ 23 + m) % 2 ^ 23 = m % 2 ^ 23 := by omega
  rw [hexp, hfrac, fieldsMagnitude]
  obtain hsub | hnormal | rfl : m < 2 ^ 23 ∨ 2 ^ 23 ≤ m ∧ m < 2 ^ 24 ∨ m = 2 ^ 24 := by omega
  · obtain rfl : s = 0 := by omega
    rw [if_pos (by omega), pow_zero, mul_one, Nat.mod_eq_of_lt hsub]
  · obtain ⟨hone, hsum⟩ : m / 2 ^ 23 = 1 ∧ 2 ^ 23 + m % 2 ^ 23 = m := by omega
    rw [if_neg (by omega), hone, hsum, Nat.add_sub_cancel]
  · rw [if_neg (by omega)]
    calc 2 ^ 23 * 2 ^ (s + 1)
      _ = 2 ^ 24 * 2 ^ s := by ring

/-- A magnitude of at least `2 ^ (p + s)` is a multiple of `2 ^ s`. -/
theorem dvd_fieldsMagnitude {p s e f : Nat} (hf : f < 2 ^ p)
    (h : 2 ^ (p + s) ≤ fieldsMagnitude p e f) : 2 ^ s ∣ fieldsMagnitude p e f := by
  have hlt : s < e := by
    have := h.trans_lt (fieldsMagnitude_lt e hf)
    have := (Nat.pow_lt_pow_iff_right (by decide)).1 this
    omega
  rw [fieldsMagnitude, if_neg (by omega)]
  exact Dvd.dvd.mul_left (pow_dvd_pow 2 (by omega)) _

theorem exists_magnitude32_eq (z : Word32) :
    ∃ e f, f < 2 ^ 23 ∧ magnitude32 z = fieldsMagnitude 23 e f :=
  ⟨_, _, (z.extractLsb' 0 23).isLt, magnitude32_eq z⟩

theorem units32_eq_or (z : Word32) : units32 z = magnitude32 z ∨ units32 z = -(magnitude32 z : Int) := by
  rw [units32]
  split
  · exact .inr rfl
  · exact .inl rfl

/-! Rounding `n` units. -/

/-- The step between the neighbours of `n` is two to this. -/
def stepLog (n : Nat) : Nat := n.log2 - 23

/-- `n` in steps, rounded to nearest, ties to even. -/
def roundedSteps (n : Nat) : Nat :=
  if 2 ^ stepLog n < 2 * (n % 2 ^ stepLog n) ∨
      2 * (n % 2 ^ stepLog n) = 2 ^ stepLog n ∧ n / 2 ^ stepLog n % 2 = 1
  then n / 2 ^ stepLog n + 1
  else n / 2 ^ stepLog n

theorem roundUnits_eq (n : Nat) : roundUnits 23 n 1 = stepLog n * 2 ^ 23 + roundedSteps n := by
  rw [roundUnits, roundedSteps]
  simp only [Nat.div_one, one_mul]
  exact congrArg _ (if_congr (by simp [stepLog]) rfl rfl)

/-- Down in the lower half of a step and up in the upper one; the even neighbour from the middle. -/
theorem roundedSteps_cases (n : Nat) :
    (roundedSteps n = n / 2 ^ stepLog n ∧ 2 * (n % 2 ^ stepLog n) ≤ 2 ^ stepLog n ∧
      (2 * (n % 2 ^ stepLog n) = 2 ^ stepLog n → n / 2 ^ stepLog n % 2 = 0)) ∨
    (roundedSteps n = n / 2 ^ stepLog n + 1 ∧ 2 ^ stepLog n ≤ 2 * (n % 2 ^ stepLog n) ∧
      (2 * (n % 2 ^ stepLog n) = 2 ^ stepLog n → n / 2 ^ stepLog n % 2 = 1)) := by
  rw [roundedSteps]
  split
  · exact .inr (by omega)
  · exact .inl (by omega)

theorem lt_two_pow_stepLog (n : Nat) : n < 2 ^ 24 * 2 ^ stepLog n := by
  rw [← pow_add, stepLog]
  exact Nat.lt_log2_self.trans_le (Nat.pow_le_pow_right two_pos (by omega))

theorem two_pow_stepLog_le {n : Nat} (h : stepLog n ≠ 0) : 2 ^ 23 * 2 ^ stepLog n ≤ n := by
  have hn : n ≠ 0 := by rintro rfl; exact h rfl
  rw [stepLog] at h
  rw [← pow_add, stepLog]
  exact (Nat.pow_le_pow_right two_pos (by omega)).trans (Nat.log2_self_le hn)

theorem steps_lt (n : Nat) : n / 2 ^ stepLog n < 2 ^ 24 :=
  Nat.div_lt_of_lt_mul (by rw [mul_comm]; exact lt_two_pow_stepLog n)

theorem steps_normal (n : Nat) : stepLog n = 0 ∨ 2 ^ 23 ≤ n / 2 ^ stepLog n :=
  or_iff_not_imp_left.2 fun h => (Nat.le_div_iff_mul_le (by positivity)).2 (two_pow_stepLog_le h)

theorem roundedSteps_le (n : Nat) : roundedSteps n ≤ 2 ^ 24 := by
  have := steps_lt n
  rcases roundedSteps_cases n with ⟨h, -⟩ | ⟨h, -⟩ <;> omega

theorem roundedSteps_normal (n : Nat) : stepLog n = 0 ∨ 2 ^ 23 ≤ roundedSteps n := by
  have := steps_normal n
  rcases roundedSteps_cases n with ⟨h, -⟩ | ⟨h, -⟩ <;> omega

/-- No finite magnitude lies strictly between the two neighbours of `n`. -/
theorem fieldsMagnitude_not_between (n : Nat) {e f : Nat} (hf : f < 2 ^ 23) :
    fieldsMagnitude 23 e f ≤ n / 2 ^ stepLog n * 2 ^ stepLog n ∨
    n / 2 ^ stepLog n * 2 ^ stepLog n + 2 ^ stepLog n ≤ fieldsMagnitude 23 e f := by
  refine or_iff_not_imp_left.2 fun hlt => ?_
  rw [not_le] at hlt
  have hdvd : 2 ^ stepLog n ∣ fieldsMagnitude 23 e f := by
    rcases steps_normal n with h | h
    · rw [h, pow_zero]
      exact one_dvd _
    · refine dvd_fieldsMagnitude hf ?_
      rw [pow_add]
      exact (Nat.mul_le_mul_right _ h).trans hlt.le
  obtain ⟨k, hk⟩ := hdvd
  rw [hk, mul_comm (2 ^ stepLog n)] at hlt ⊢
  rw [← Nat.succ_mul]
  exact Nat.mul_le_mul_right _ (Nat.lt_of_mul_lt_mul_right hlt)

/-- The rounded value is as near as any finite magnitude, and even where another is as near. -/
theorem roundedSteps_nearest (n : Nat) {e f : Nat} (hf : f < 2 ^ 23) :
    ((roundedSteps n * 2 ^ stepLog n : Nat) - n : Int).natAbs ≤
      ((fieldsMagnitude 23 e f : Int) - n).natAbs ∧
    (((roundedSteps n * 2 ^ stepLog n : Nat) - n : Int).natAbs =
        ((fieldsMagnitude 23 e f : Int) - n).natAbs →
      fieldsMagnitude 23 e f ≠ roundedSteps n * 2 ^ stepLog n → roundedSteps n % 2 = 0) := by
  have hsplit := Nat.div_add_mod' n (2 ^ stepLog n)
  have hgap := fieldsMagnitude_not_between n (e := e) hf
  have hr := Nat.mod_lt n (Nat.two_pow_pos (stepLog n))
  rcases roundedSteps_cases n with ⟨h, hhalf, htie⟩ | ⟨h, hhalf, htie⟩
  · rw [h]
    omega
  · rw [h, Nat.succ_mul]
    omega

/-! Overflow. -/

/-- The pattern reaches infinity from half a step above the largest finite value on. -/
theorem infinityBits32_le_roundUnits_iff (n : Nat) :
    infinityBits32 ≤ roundUnits 23 n 1 ↔ (2 ^ 25 - 1) * 2 ^ 252 ≤ n := by
  rw [roundUnits_eq, infinityBits32]
  have hle := roundedSteps_le n
  have hlow := two_pow_stepLog_le (n := n)
  have hhigh := lt_two_pow_stepLog n
  rcases lt_trichotomy (stepLog n) 253 with hs | hs | hs
  · have hpow : 2 ^ stepLog n ≤ 2 ^ 252 := Nat.pow_le_pow_right two_pos (by omega)
    omega
  · have hsplit := Nat.div_add_mod' n (2 ^ stepLog n)
    have hq := steps_lt n
    have hcases := roundedSteps_cases n
    rw [hs] at *
    omega
  · have hpow : 2 ^ 254 ≤ 2 ^ stepLog n := Nat.pow_le_pow_right two_pos (by omega)
    have hnorm := roundedSteps_normal n
    have hn := hlow (by omega)
    omega

/-- A rounded value that does not overflow is its number of steps. -/
theorem units32_roundToFloat32 {v : Int} (h : roundUnits 23 v.natAbs 1 < infinityBits32) :
    units32 (roundToFloat32 v) =
      if v < 0 then -((roundedSteps v.natAbs * 2 ^ stepLog v.natAbs : Nat) : Int)
      else (roundedSteps v.natAbs * 2 ^ stepLog v.natAbs : Nat) := by
  have hlt : roundUnits 23 v.natAbs 1 < 2 ^ 31 := h.trans (by decide)
  rw [roundToFloat32, min_eq_left h.le, units32_withSign32 hlt, roundUnits_eq,
    fieldsMagnitude_scaled (roundedSteps_le _) (roundedSteps_normal _)]
  simp only [decide_eq_true_eq]

theorem toNat_roundToFloat32_mod_two {v : Int} (h : roundUnits 23 v.natAbs 1 < infinityBits32) :
    (roundToFloat32 v).toNat % 2 = roundedSteps v.natAbs % 2 := by
  have hlt : roundUnits 23 v.natAbs 1 < 2 ^ 31 := h.trans (by decide)
  rw [roundToFloat32, min_eq_left h.le, toNat_withSign32 hlt, roundUnits_eq]
  split <;> omega

theorem isFinite32_roundToFloat32_iff (v : Int) :
    isFinite32 (roundToFloat32 v) = true ↔ roundUnits 23 v.natAbs 1 < infinityBits32 := by
  rw [roundToFloat32, isFinite32_withSign32 (min_le_right _ _), min_lt_iff]
  exact or_iff_left (lt_irrefl _)

theorem roundToFloat32_of_overflow {v : Int} (h : infinityBits32 ≤ roundUnits 23 v.natAbs 1) :
    roundToFloat32 v = if v < 0 then 0xFF800000 else 0x7F800000 := by
  rw [roundToFloat32, min_eq_right h]
  by_cases hv : v < 0 <;> simp only [hv, decide_true, decide_false, if_true, if_false] <;> rfl

/-- Rounding a value is rounding its magnitude: no finite pattern is nearer, whatever its sign. -/
theorem roundToFloat32_nearest {v : Int} (hv : v ≠ 0)
    (h : roundUnits 23 v.natAbs 1 < infinityBits32) (z : Word32) :
    (units32 (roundToFloat32 v) - v).natAbs ≤ (units32 z - v).natAbs ∧
    ((units32 (roundToFloat32 v) - v).natAbs = (units32 z - v).natAbs →
      units32 z ≠ units32 (roundToFloat32 v) → (roundToFloat32 v).toNat % 2 = 0) := by
  obtain ⟨e, f, hf, hmag⟩ := exists_magnitude32_eq z
  have hz := units32_eq_or z
  rw [hmag] at hz
  have hnear := roundedSteps_nearest v.natAbs (e := e) hf
  rw [units32_roundToFloat32 h, toNat_roundToFloat32_mod_two h]
  split <;> omega

theorem fsub32_of_units32_ne {x y : Word32} (hx : isFinite32 x = true) (hy : isFinite32 y = true)
    (hne : units32 x ≠ units32 y) : fsub32 x y = roundToFloat32 (units32 x - units32 y) := by
  rw [fsub32_of_isFinite32 hx hy]
  exact if_neg (sub_ne_zero.2 hne)

/-- Settles O38: the difference is rounded once, by `roundToFloat32`. -/
theorem subtractionRoundsToNearestEven : Obligations.SubtractionRoundsToNearestEven := by
  intro x y hx hy hne
  rw [fsub32_of_units32_ne hx hy hne]
  have hinf : isFinite32 (roundToFloat32 (units32 x - units32 y)) = false ↔
      infinityBits32 ≤ roundUnits 23 (units32 x - units32 y).natAbs 1 := by
    rw [← Bool.not_eq_true, isFinite32_roundToFloat32_iff, not_lt]
  refine ⟨fun hfin z _ => ?_, ?_, fun hover => ?_⟩
  · exact roundToFloat32_nearest (sub_ne_zero.2 hne) ((isFinite32_roundToFloat32_iff _).1 hfin) z
  · rw [hinf, infinityBits32_le_roundUnits_iff]
  · rw [roundToFloat32_of_overflow (hinf.1 hover)]
    exact if_congr sub_neg rfl rfl

end Sys2Proof.Machine
end

section
/-! SUPPORT. COMPRESS (43_delta_xor_encoder.md R180 to R184, R187): its errors in the order of 60_exceptions.md R243, what
it leaves in memory and in LEAD, the empty block, and COMPRESS again. -/

namespace Sys2Proof.Machine

open Sys2Proof

/-! The checks, one after the other. -/

theorem compressOutput_notReady {s : State} (h : s.compressReady = false) :
    compressOutput s = .error .notReady := by
  rw [compressOutput, if_pos h]

theorem compressOutput_accessFault {s : State} (hready : s.compressReady = true)
    (hrb : reqBytes s.planned.reqLength ≠ 4)
    (hr : rangeOK s.platform s.dst.toNat s.encoded.out.length = false) :
    compressOutput s = .error .accessFault := by
  rw [compressOutput, if_neg (by simp [hready]), if_neg hrb, if_pos hr]

theorem compressReady_eq_false {s : State}
    (h : s.cfgV = false ∨ s.radV = false ∨ s.loadV = false ∨ s.dstV = false) :
    s.compressReady = false := by
  rcases h with h | h | h | h <;> simp [State.compressReady, h]

/-! The next state. -/

/-- The next state of a COMPRESS that succeeds. -/
def State.compressed (s : State) : State :=
  ((s.storeAtDst s.encoded.out).respond (BitVec.ofNat 64 s.encoded.out.length)).setLead
    s.encoded.counts

theorem mem_compressed (s : State) :
    s.compressed.mem = s.mem.writeBytes s.dst.toNat s.encoded.out := rfl

theorem lead_compressed (s : State) : s.compressed.lead = overlay s.encoded.counts s.lead := rfl

theorem dst_compressed (s : State) : s.compressed.dst = s.dst := by
  rw [State.compressed, State.setLead_dst, State.respond_dst, State.storeAtDst_dst]

theorem execCompress_of_ok {s : State} {out : List Byte} (h : compressOutput s = .ok out) :
    execCompress s = .next s.compressed := by
  rcases execCompress_cases s with ⟨-, hexec⟩ | ⟨e, herr, -⟩
  · exact hexec
  · exact absurd (h.symm.trans herr) nofun

/-- LEAD below BLKLEN holds the counts, and above it what it held. -/
theorem leadCount_compressed (s : State) (i : Nat) :
    s.compressed.leadCount i =
      if i < s.blkLen then s.encoded.counts.getD i Config.leadAtReset else s.leadCount i := by
  rw [← length_encoded_counts s]
  exact getD_overlay ..

theorem counts_eq_leadCount_compressed {s : State} {i : Nat} (hi : i < s.blkLen) :
    s.encoded.counts[i]? = some (s.compressed.leadCount i) := by
  rw [leadCount_compressed, if_pos hi, List.getD_eq_getElem _ _ (by simpa using hi),
    List.getElem?_eq_getElem]

/-- The output of a COMPRESS that succeeds fits below 2^64. -/
theorem encoded_fits {s : State} {out : List Byte} (h : compressOutput s = .ok out) :
    s.dst.toNat + s.encoded.out.length ≤ Config.memorySize := by
  obtain ⟨-, -, hr, -⟩ := compressOutput_eq_ok.1 h
  exact fits_of_rangeOK (toNat_lt_memorySize s.dst) hr

theorem read_compressed {s : State} {out : List Byte} (h : compressOutput s = .ok out)
    (hwf : s.mem.wf = true) {j : Nat} (hj : j < s.encoded.out.length) :
    s.compressed.mem.read (s.dst.toNat + j) = s.encoded.out[j] :=
  Memory.read_writeBytes_inside hwf (encoded_fits h) hj

theorem storedOnly_compressed {s : State} {out : List Byte} (h : compressOutput s = .ok out)
    (hwf : s.mem.wf = true) :
    StoredOnly { s with lead := s.compressed.lead } s.compressed s.encoded.out :=
  ⟨fun _ => read_compressed h hwf, fun _ hx => Memory.read_writeBytes_outside _ _ hx, rfl⟩

/-- Settles O30: the state named by `State.compressed`, or one of the three errors. -/
theorem compressWritesBlock : Obligations.CompressWritesBlock := by
  refine ⟨decode_opCode .compress, fun s => ⟨fun hwf hc hr hl hd hrb hrange => ?_, fun h => ?_,
    fun hc hr hl hd hrb => ?_, fun hc hr hl hd hrb hrange => ?_⟩⟩
  · have hready := State.compressReady_iff.2 ⟨hc, hr, hl, hd⟩
    have hout := compressOutput_eq_ok.2 ⟨hready, hrb, hrange, rfl⟩
    exact ⟨s.compressed, execCompress_of_ok hout, storedOnly_compressed hout hwf, rfl,
      fun i hi => counts_eq_leadCount_compressed hi,
      fun i hi => by rw [leadCount_compressed, if_neg (not_lt.2 hi)]⟩
  · exact execCompress_of_error (compressOutput_notReady (compressReady_eq_false h))
  · have hready := State.compressReady_iff.2 ⟨hc, hr, hl, hd⟩
    exact execCompress_of_error (compressOutput_unsupportedPrecision hready hrb)
  · have hready := State.compressReady_iff.2 ⟨hc, hr, hl, hd⟩
    exact execCompress_of_error (compressOutput_accessFault hready hrb hrange)

/-! The empty block (R182). -/

theorem block_eq_nil {s : State} (h : s.blkLen = 0) : s.block = [] :=
  List.eq_nil_of_length_eq_zero (by rw [length_block, h])

theorem out_encodePlanned_nil (p : PlanResult) :
    (encodePlanned p []).out = BitVec.ofNat 8 p.reqLength :: le32 p.effMedian := by
  have hcounts : (encodePlanned p []).counts = [] := rfl
  have hpack : pack2 [] = [] := by decide
  rw [out_encodePlanned, hcounts, List.map_nil, hpack]
  exact List.append_nil _

/-- A plan of fewer than four bytes keeps the median. -/
theorem effMedian_of_reqBytes_ne {eb : Word64} {rad med : Word32}
    (h : reqBytes (plan eb rad med).reqLength ≠ 4) : (plan eb rad med).effMedian = med := by
  by_contra hmed
  exact h (by rw [plan_eq_of_effMedian_ne hmed]; rfl)

theorem encoded_out_of_empty {s : State} (h : s.blkLen = 0)
    (hrb : reqBytes s.planned.reqLength ≠ 4) :
    s.encoded.out = BitVec.ofNat 8 s.planned.reqLength :: le32 s.median := by
  rw [State.encoded, block_eq_nil h, encodeBlock, out_encodePlanned_nil, effMedian_of_reqBytes_ne hrb]
  rfl

theorem lead_compressed_of_empty {s : State} (h : s.blkLen = 0) : s.compressed.lead = s.lead := by
  have hcounts : s.encoded.counts = [] :=
    List.eq_nil_of_length_eq_zero (by rw [length_encoded_counts, h])
  rw [State.compressed, hcounts]
  rfl

/-- Settles O40: the encoding is its header and median, and no count is written. -/
theorem emptyBlockIsFiveBytes : Obligations.EmptyBlockIsFiveBytes := by
  refine fun s hwf hempty hready => ⟨fun hrb hrange => ?_, fun hrb =>
    execCompress_of_error (compressOutput_unsupportedPrecision hready hrb)⟩
  have hbytes := encoded_out_of_empty hempty hrb
  have hlen : s.encoded.out.length = 5 := by rw [hbytes]; rfl
  have hout := compressOutput_eq_ok.2 ⟨hready, hrb, by rwa [hlen], rfl⟩
  have hstored := storedOnly_compressed hout hwf
  rw [lead_compressed_of_empty hempty, hbytes] at hstored
  refine ⟨s.compressed, execCompress_of_ok hout, hstored, ?_⟩
  rw [State.compressed, hlen]
  rfl

/-! LEAD and the packed counts (R184). -/

/-- The packed counts stand in memory from DST+5 on. -/
theorem readBytes_packedCounts {s : State} {out : List Byte} (h : compressOutput s = .ok out)
    (hwf : s.mem.wf = true) :
    s.compressed.mem.readBytes (s.dst.toNat + 5) (ceilDiv s.blkLen 4) =
      pack2 (s.encoded.counts.map countByte) := by
  have hpart : (s.encoded.out.drop 5).take (ceilDiv s.blkLen 4) =
      pack2 (s.encoded.counts.map countByte) := by
    rw [← length_block s]
    exact packedCounts_of_out _ s.block
  rw [← hpart]
  refine List.ext_getElem (by rw [hpart]; simp) fun j hj hj' => ?_
  rw [List.length_take, List.length_drop] at hj'
  rw [Memory.getElem_readBytes, List.getElem_take, List.getElem_drop, add_assoc]
  exact read_compressed h hwf (by omega)

/-- Settles O41: unpacking gives the counts back, and LEAD holds them. -/
theorem leadMatchesPackedBytes : Obligations.LeadMatchesPackedBytes := by
  intro s t out hwf hout hexec
  obtain rfl := Host.Outcome.next.inj ((execCompress_of_ok hout).symm.trans hexec)
  refine ⟨?_, fun i hi => counts_eq_leadCount_compressed hi⟩
  have hunpack := unpack2_packedCounts s.encoded.counts
  rw [length_encoded_counts] at hunpack
  rw [readBytes_packedCounts hout hwf, hunpack]
  refine List.ext_getElem (by simp) fun i hi _ => ?_
  have hlt : i < s.blkLen := by simpa using hi
  have hlead := counts_eq_leadCount_compressed hlt
  rw [List.getElem?_eq_getElem (by simpa using hlt), Option.some_inj] at hlead
  rw [List.getElem_map, List.getElem_map, List.getElem_range, hlead]
  rfl

/-! COMPRESS again (R180, R187). -/

theorem Memory.writeBytes_writeBytes {m : Memory} {a : Nat} {bs : List Byte} (h : m.wf = true)
    (ha : a + bs.length ≤ Config.memorySize) :
    (m.writeBytes a bs).writeBytes a bs = m.writeBytes a bs := by
  have hwf := Memory.writeBytes_wf h ha
  refine Memory.ext_of_wf (Memory.writeBytes_wf hwf ha) hwf fun x => ?_
  by_cases hx : a ≤ x ∧ x < a + bs.length
  · obtain ⟨j, rfl⟩ := Nat.exists_eq_add_of_le hx.1
    rw [Memory.read_writeBytes_inside hwf ha (by omega), Memory.read_writeBytes_inside h ha (by omega)]
  · exact Memory.read_writeBytes_outside _ _ (by omega)

theorem overlay_overlay {α : Type} (new old : List α) :
    overlay new (overlay new old) = overlay new old := by
  rw [overlay, overlay, List.drop_left]

/-- COMPRESS reads none of what it writes. -/
theorem compressOutput_withWrites (s : State) (m : Memory) (l : List (BitVec 2)) (r : List Response) :
    compressOutput { s with mem := m, lead := l, responses := r } = compressOutput s := rfl

theorem compressOutput_compressed (s : State) : compressOutput s.compressed = compressOutput s :=
  compressOutput_withWrites s s.compressed.mem s.compressed.lead s.compressed.responses

theorem encoded_withWrites (s : State) (m : Memory) (l : List (BitVec 2)) (r : List Response) :
    State.encoded { s with mem := m, lead := l, responses := r } = s.encoded := rfl

theorem encoded_compressed (s : State) : s.compressed.encoded = s.encoded :=
  encoded_withWrites s s.compressed.mem s.compressed.lead s.compressed.responses

theorem storeAtDst_compressed {s : State} {out : List Byte} (h : compressOutput s = .ok out)
    (hwf : s.mem.wf = true) : s.compressed.storeAtDst s.encoded.out = s.compressed := by
  have hmem : s.compressed.mem.writeBytes s.dst.toNat s.encoded.out = s.compressed.mem := by
    rw [mem_compressed, Memory.writeBytes_writeBytes hwf (encoded_fits h)]
  rw [State.storeAtDst, dst_compressed, hmem]
  rfl

theorem setLead_compressed (s : State) (v : Word64) :
    (s.compressed.respond v).setLead s.encoded.counts = s.compressed.respond v := by
  have hlead : overlay s.encoded.counts (s.compressed.respond v).lead = s.compressed.lead := by
    rw [State.respond_lead, lead_compressed, overlay_overlay]
  rw [State.setLead, hlead]
  rfl

theorem compressed_compressed {s : State} {out : List Byte} (h : compressOutput s = .ok out)
    (hwf : s.mem.wf = true) :
    s.compressed.compressed = s.compressed.respond (BitVec.ofNat 64 s.encoded.out.length) := by
  rw [State.compressed, encoded_compressed, storeAtDst_compressed h hwf, setLead_compressed]

/-- Settles O42: the second COMPRESS has the first one's output, and writing it again changes nothing. -/
theorem compressTwiceWritesSameBytes : Obligations.CompressTwiceWritesSameBytes := by
  intro s t out hwf hout hexec
  obtain rfl := Host.Outcome.next.inj ((execCompress_of_ok hout).symm.trans hexec)
  obtain ⟨-, -, -, rfl⟩ := compressOutput_eq_ok.1 hout
  exact (execCompress_of_ok ((compressOutput_compressed s).trans hout)).trans
    (congrArg _ (compressed_compressed hout hwf))

end Sys2Proof.Machine
end

section
/-! SUPPORT. The offload protocol (44_offload_protocol.md R210 to R213): CONFIGURE, SET_RADIUS and SET_DST write their
registers unchecked, and BULK_LOAD copies the block or fails one of its two checks, in the order of 60_exceptions.md
R243. -/

namespace Sys2Proof.Machine

open Sys2Proof

/-! The register writes (R210, R211, R213). -/

/-- Settles O19: no operand value is checked. -/
theorem configureStoresBoundAndMedian : Obligations.ConfigureStoresBoundAndMedian :=
  ⟨decode_opCode .configure, fun _ _ _ => rfl⟩

/-- Settles O20: no operand value is checked. -/
theorem setRadiusStoresRadius : Obligations.SetRadiusStoresRadius :=
  ⟨decode_opCode .setRadius, fun _ _ => rfl⟩

/-- Settles O21: the address is not checked. -/
theorem setDstStoresAddress : Obligations.SetDstStoresAddress :=
  ⟨decode_opCode .setDst, fun _ _ => rfl⟩

/-! BULK_LOAD (R212): its checks, one after the other. -/

theorem loadedSamples_ok {src : Word64} {n : Nat} {s : State} (hn : n ≤ s.platform.maxBlockLen)
    (hr : rangeOK s.platform src.toNat (4 * n) = true) :
    loadedSamples src n s = .ok (s.mem.readSamples src.toNat n) := by
  rw [loadedSamples, if_pos hn, if_pos hr]

theorem loadedSamples_accessFault {src : Word64} {n : Nat} {s : State}
    (hn : n ≤ s.platform.maxBlockLen) (hr : rangeOK s.platform src.toNat (4 * n) = false) :
    loadedSamples src n s = .error .accessFault := by
  rw [loadedSamples, if_pos hn, if_neg (by simp [hr])]

theorem loadedSamples_lengthRange {src : Word64} {n : Nat} {s : State}
    (hn : s.platform.maxBlockLen < n) : loadedSamples src n s = .error .lengthRange := by
  rw [loadedSamples, if_neg (not_le.2 hn)]

theorem execBulkLoad_of_error {src : Word64} {n : Nat} {s : State} {e : Status}
    (h : loadedSamples src n s = .error e) : execBulkLoad src n s = .next (s.raise e) := by
  rw [execBulkLoad, h]

/-! The next state. -/

/-- The next state of a BULK_LOAD that succeeds. -/
def State.bulkLoaded (s : State) (src : Word64) (n : Nat) : State :=
  (s.setBlock (s.mem.readSamples src.toNat n)).respond (BitVec.ofNat 64 n)

theorem execBulkLoad_of_ok {src : Word64} {n : Nat} {s : State}
    (hn : n ≤ s.platform.maxBlockLen) (hr : rangeOK s.platform src.toNat (4 * n) = true) :
    execBulkLoad src n s = .next (s.bulkLoaded src n) := by
  rw [execBulkLoad, loadedSamples_ok hn hr, State.bulkLoaded]

/-- SAMPLES below the count holds what memory holds, and above it what it held (10_state.md R26). -/
theorem sample_bulkLoaded (s : State) (src : Word64) (n i : Nat) :
    (s.bulkLoaded src n).sample i =
      if i < n then s.mem.readSample (src.toNat + 4 * i) else s.sample i := by
  rw [State.sample, State.bulkLoaded, State.respond_samples, State.setBlock_samples, getD_overlay,
    Memory.length_readSamples]
  refine ite_congr rfl (fun hi => ?_) fun _ => rfl
  rw [List.getD_eq_getElem _ _ (by simpa using hi), Memory.getElem_readSamples]

/-- BULK_LOAD writes SAMPLES, BLKLEN, LOAD_V and its response, and nothing else (10_state.md R35). -/
theorem bulkLoaded_frame (s : State) (src : Word64) (n : Nat) :
    s.bulkLoaded src n = { s with
      samples := (s.bulkLoaded src n).samples, blkLen := n, loadV := true,
      responses := s.responses ++ [⟨.ok, BitVec.ofNat 64 n⟩] } := by
  have hlen : (s.bulkLoaded src n).blkLen = n := Memory.length_readSamples ..
  calc s.bulkLoaded src n
      = { s with
          samples := (s.bulkLoaded src n).samples, blkLen := (s.bulkLoaded src n).blkLen,
          loadV := true, responses := s.responses ++ [⟨.ok, BitVec.ofNat 64 n⟩] } := rfl
    _ = _ := by rw [hlen]

/-- Settles O22: the state named by `State.bulkLoaded`, or one of the two errors. -/
theorem bulkLoadTakesSnapshot : Obligations.BulkLoadTakesSnapshot := by
  refine ⟨decode_opCode .bulkLoad, fun src n s => ⟨fun hn hr => ?_, fun hn => ?_, fun hn hr => ?_⟩⟩
  · refine ⟨s.bulkLoaded src n, execBulkLoad_of_ok hn hr, fun i hi => ?_, fun i hi => ?_,
      bulkLoaded_frame s src n⟩
    · rw [sample_bulkLoaded, if_pos hi, Memory.toNat_readSample]
    · rw [sample_bulkLoaded, if_neg (not_lt.2 hi)]
  · exact execBulkLoad_of_error (loadedSamples_lengthRange hn)
  · exact execBulkLoad_of_error (loadedSamples_accessFault hn hr)

end Sys2Proof.Machine
end

section
/-! SUPPORT. Exceptions (60_exceptions.md): the status codes (R240), the idle unit (R254), and the one way a command can
fail, `State.raise` (R244). -/

namespace Sys2Proof.Machine

open Sys2Proof

/-- Settles O57. -/
theorem statusCodesAreTabled : Obligations.StatusCodesAreTabled := by
  refine ⟨rfl, rfl, rfl, rfl, rfl, rfl, rfl, fun st => ?_⟩
  cases st <;> decide

/-- Settles O8. -/
theorem idleUnitKeepsState : Obligations.IdleUnitKeepsState := fun _ => step_idle

/-- `t` is `s` after a command that either answered OK or only raised an error (R244). -/
def State.OkOrRaised (s t : State) : Prop :=
  (∃ v, t.responses = s.responses ++ [⟨.ok, v⟩]) ∨ ∃ e, t = s.raise e

theorem State.raise_okOrRaised (s : State) (e : Status) : s.OkOrRaised (s.raise e) := .inr ⟨e, rfl⟩

theorem State.deliver_okOrRaised (s : State) (r : Except Status (List Byte)) :
    s.OkOrRaised (s.deliver r) := by
  cases r with
  | ok out => exact .inl ⟨_, (s.storeAtDst out).respond_responses _⟩
  | error e => exact s.raise_okOrRaised e

/-- No command fails in any way but by `State.raise`. -/
theorem exec_okOrRaised {i : Instr} {s t : State} (h : exec i s = .next t) : s.OkOrRaised t := by
  cases i with
  | configure eb med => cases h; exact .inl ⟨_, (s.setConfig eb med).respond_responses _⟩
  | setRadius r => cases h; exact .inl ⟨_, (s.setRadius r).respond_responses _⟩
  | setDst d => cases h; exact .inl ⟨_, (s.setDst d).respond_responses _⟩
  | bulkLoad src n =>
    rcases execBulkLoad_cases src n s with ⟨-, -, h'⟩ | ⟨-, -, h'⟩ | ⟨-, h'⟩ <;>
      obtain rfl := Host.Outcome.next.inj (h'.symm.trans h)
    · exact .inl ⟨_, (s.setBlock _).respond_responses _⟩
    · exact s.raise_okOrRaised _
    · exact s.raise_okOrRaised _
  | compress =>
    rcases execCompress_cases s with ⟨-, h'⟩ | ⟨e, -, h'⟩ <;>
      obtain rfl := Host.Outcome.next.inj (h'.symm.trans h)
    · exact .inl ⟨_, (s.storeAtDst _).respond_responses _⟩
    · exact s.raise_okOrRaised e
  | plan =>
    rcases execPlan_cases s with ⟨-, h'⟩ | ⟨-, h'⟩ <;>
      obtain rfl := Host.Outcome.next.inj (h'.symm.trans h)
    · exact .inl ⟨_, s.respond_responses _⟩
    · exact s.raise_okOrRaised _
  | pack1 | pack2 | unpack1 | unpack2 => cases h; exact s.deliver_okOrRaised _

theorem execCommand_okOrRaised (c : Command) (s : State) :
    ∃ t, execCommand c s = .next t ∧ s.OkOrRaised t := by
  cases hd : decode c with
  | ok i =>
    obtain ⟨t, ht⟩ := exec_isNext i s
    exact ⟨t, (execCommand_of_decode_ok s hd).trans ht, exec_okOrRaised ht⟩
  | error e => exact ⟨_, execCommand_of_decode_error s hd, s.raise_okOrRaised _⟩

/-- Settles O10: a command that does not answer OK has only raised its error. -/
theorem failedCommandChangesNothing : Obligations.FailedCommandChangesNothing := by
  intro c s
  obtain ⟨t, ht, ⟨v, hv⟩ | ⟨e, rfl⟩⟩ := execCommand_okOrRaised c s
  · exact ⟨t, ⟨.ok, v⟩, ht, hv, absurd rfl⟩
  · exact ⟨_, ⟨e, 0⟩, ht, rfl, fun _ => ⟨rfl, rfl⟩⟩

end Sys2Proof.Machine
end

section
/-! SUPPORT. Reset and hazards (70_reset_and_hazards.md): the one input without a step (R274), what reset leaves (R270,
R271), and the bytes of memory and of the host's record that a race leaves (R275). -/

namespace Sys2Proof.Machine

open Sys2Proof

/-! The port rule (R274). -/

theorem step_early {s : State} {c second : Command} {rest : List HostInput}
    (h : s.inbox = .early c second :: rest) : step s = .fault .commandPortBusy := step_input h

theorem execUntilError_isNext (cs : List Command) (s : State) :
    ∃ t, execUntilError cs s = .next t := by
  cases cs with
  | nil => exact ⟨s, rfl⟩
  | cons c cs =>
    obtain ⟨t, ht⟩ := execCommand_isNext c s
    exact ⟨_, execUntilError_cons ht⟩

theorem execRaced_isNext (c : Command) (accs : List HostAccess) (s : State) :
    ∃ t, execRaced c accs s = .next t := by
  obtain ⟨t, -, ht, -⟩ := execRaced_answers c accs s
  exact ⟨t, ht⟩

/-- Every input that keeps the port rule has a next state (R280). -/
theorem receive_isNext {input : HostInput} (hport : keepsPortRule input = true) (s : State) :
    ∃ t, receive input s = .next t := by
  cases input with
  | command c => exact execCommand_isNext c s
  | untilError cs => exact execUntilError_isNext cs s
  | raced c accs => exact execRaced_isNext c accs s
  | store | load | reset | resetDuring | resetBefore => exact ⟨_, rfl⟩
  | early => cases hport

theorem keepsPortRule_eq_false {input : HostInput} :
    keepsPortRule input = false ↔ ∃ c second, input = .early c second := by
  cases input <;> simp [keepsPortRule]

/-- Settles O11: an idle step keeps the state, and an input that breaks the port rule is an early command. -/
theorem onlyAnEarlyCommandStops : Obligations.OnlyAnEarlyCommandStops := by
  refine ⟨fun s => ?_, fun s c c' rest => step_early⟩
  cases hin : s.inbox with
  | nil => exact .inl ⟨s, step_idle hin⟩
  | cons input rest =>
    cases hport : keepsPortRule input with
    | true => exact .inl (step_input hin ▸ receive_isNext hport _)
    | false =>
      obtain ⟨c, c', rfl⟩ := keepsPortRule_eq_false.1 hport
      exact .inr ⟨step_early hin, c, c', rest, rfl⟩

/-! Reset between commands (R270), and before a command is accepted (R271). -/

theorem step_reset {s : State} {rest : List HostInput} (h : s.inbox = .reset :: rest) :
    step s = .next { s.afterReset with inbox := rest } := step_input h

theorem step_resetBefore {s : State} {c : Command} {rest : List HostInput}
    (h : s.inbox = .resetBefore c :: rest) :
    step s = .next { s.afterReset with inbox := rest } := step_input h

theorem step_resetDuring {s : State} {c : Command} {accs : List HostAccess} {rest : List HostInput}
    (h : s.inbox = .resetDuring c accs :: rest) :
    step s = .next (State.abortedBy { s with inbox := rest } c accs) := step_input h

/-- Settles O16: the values are those of `State.reset`, which `State.afterReset` starts from. -/
theorem resetClearsValidBits : Obligations.ResetClearsValidBits :=
  ⟨⟨rfl, rfl, rfl, rfl, rfl, rfl⟩,
    fun _ _ hin => ⟨_, step_reset hin, rfl, rfl, rfl, rfl, rfl, rfl, rfl⟩⟩

/-! The bytes of memory that reset or a race during a command leaves (R271, R275). -/

/-- A byte after the host's accesses is the old one where the host wrote none, and otherwise one it wrote there. -/
theorem read_hostStored_cases (accs : List HostAccess) {m : Memory} (h : m.wf = true) (x : Nat) :
    (hostWrites accs x = false ∧ (hostStored accs m).read x = m.read x) ∨
      ∃ a b, .store a b ∈ accs ∧ a.toNat = x ∧ (hostStored accs m).read x = b := by
  cases hx : hostWrites accs x with
  | false => exact .inl ⟨rfl, read_hostStored_untouched hx⟩
  | true => exact .inr (read_hostStored_touched h hx)

/-- A byte of memory after an aborted write is the one under it, or the command's own in its write range. -/
theorem read_writeDrawn_cases {k : Nat} {m : Memory} {a : Nat} {bs : List Byte} (h : m.wf = true)
    (ha : a + bs.length ≤ Config.memorySize) (x : Nat) :
    (writeDrawn k m a bs).read x = m.read x ∨
      ∃ j, ∃ hj : j < bs.length, x = a + j ∧ (writeDrawn k m a bs).read x = bs[j] := by
  by_cases hx : x < a ∨ a + bs.length ≤ x
  · exact .inl (read_writeDrawn_outside m bs hx)
  · obtain ⟨j, rfl⟩ := Nat.exists_eq_add_of_le (show a ≤ x by omega)
    have hj : j < bs.length := by omega
    exact (read_writeDrawn_inside h ha hj).imp_right fun hnew => ⟨j, hj, rfl, hnew⟩

/-- The bytes a command raced by these accesses writes at DST. -/
def State.racedOutput (s : State) (c : Command) (accs : List HostAccess) : List Byte :=
  commandOutput c { s with mem := racedView s.draws accs s.mem }

theorem State.racedOutput_fits (s : State) (c : Command) (accs : List HostAccess) :
    s.dst.toNat + (s.racedOutput c accs).length ≤ Config.memorySize :=
  commandOutput_fits c { s with mem := racedView s.draws accs s.mem }

/-- The memory that reset during a command leaves, a byte at a time. -/
theorem State.read_abortedBy {s : State} (c : Command) (accs : List HostAccess)
    (h : s.mem.wf = true) (x : Nat) :
    (hostWrites accs x = false ∧ (s.abortedBy c accs).mem.read x = s.mem.read x) ∨
      (∃ a b, .store a b ∈ accs ∧ a.toNat = x ∧ (s.abortedBy c accs).mem.read x = b) ∨
      ∃ j, ∃ hj : j < (s.racedOutput c accs).length, x = s.dst.toNat + j ∧
        (s.abortedBy c accs).mem.read x = (s.racedOutput c accs)[j] := by
  have hmem : (s.abortedBy c accs).mem = writeDrawn (s.draws + accs.length)
      (hostStored accs s.mem) s.dst.toNat (s.racedOutput c accs) := rfl
  rw [hmem]
  rcases read_writeDrawn_cases (k := s.draws + accs.length) (hostStored_wf (accs := accs) h)
    (s.racedOutput_fits c accs) x with hold | hnew
  · rw [hold]
    exact (read_hostStored_cases accs h x).imp_right .inl
  · exact .inr (.inr hnew)

/-- Settles O17: `State.read_abortedBy` for memory and `racedReads_spec` for the host's reads. -/
theorem resetDuringCommandLeavesOldOrNew : Obligations.ResetDuringCommandLeavesOldOrNew := by
  intro s c accs rest hwf
  constructor
  · intro hin
    exact ⟨racedView s.draws accs s.mem, _, read_racedView hwf, fun h => h ▸ rfl,
      step_resetDuring hin,
      State.read_abortedBy (s := { s with inbox := rest }) c accs hwf,
      ⟨_, rfl, racedReads_spec hwf (fun _ => id) fun _ => .inl rfl⟩,
      rfl, rfl, rfl, rfl, rfl, rfl, rfl, rfl⟩
  · intro hin
    exact ⟨_, step_resetBefore hin, rfl, rfl, rfl, rfl, rfl, rfl, rfl, rfl, rfl, rfl⟩

theorem step_raced {s : State} {c : Command} {accs : List HostAccess} {rest : List HostInput}
    (h : s.inbox = .raced c accs :: rest) :
    step s = execRaced c accs { s with inbox := rest } := step_input h

/-- A byte the unit writes over the host's accesses ends as its own or as one the host wrote there. -/
theorem read_racedStore_hostStored {k : Nat} {accs : List HostAccess} {m : Memory} {a : Nat}
    {bs : List Byte} (h : m.wf = true) (ha : a + bs.length ≤ Config.memorySize) {j : Nat}
    (hj : j < bs.length) :
    (racedStore k accs (hostStored accs m) a bs).read (a + j) = bs[j] ∨
      ∃ w b, .store w b ∈ accs ∧ w.toNat = a + j ∧
        (racedStore k accs (hostStored accs m) a bs).read (a + j) = b := by
  refine (read_racedStore_inside (hostStored_wf h) ha hj).imp_right fun ⟨hwrites, hhost⟩ => ?_
  rw [hhost]
  exact read_hostStored_touched h hwrites

/-- Settles O18: inside the write range by `read_racedStore_hostStored`, outside it memory is as the host leaves it. -/
theorem racedBytesAreOldOrNew : Obligations.RacedBytesAreOldOrNew := by
  intro s c accs rest hwf hin
  obtain ⟨u, hu⟩ :=
    execCommand_isNext c { s with inbox := rest, mem := racedView s.draws accs s.mem }
  refine ⟨racedView s.draws accs s.mem, _, u, _, read_racedView hwf, hu,
    (step_raced hin).trans (execRaced_eq hu), rfl, fun j hj => ?_, fun x hx => ?_,
    racedReads_spec hwf (fun _ => id) fun _ => .inl rfl⟩
  · exact read_racedStore_hostStored hwf
      (State.racedOutput_fits { s with inbox := rest } c accs) hj
  · have hhost := read_racedStore_outside (k := s.draws + accs.length) (accs := accs)
      (hostStored accs s.mem) _ hx
    dsimp only
    rw [hhost]
    exact ⟨read_hostStored_touched hwf, read_hostStored_untouched⟩

end Sys2Proof.Machine
end
